-- ==== Sys2Proof/Word.lean ====
section
/-! DEFINITION. The value types of the block: the dictionary word, the data byte, the 11-bit word index, the widths
of the accumulators and counts, and the table type. Rules R5, R9, R20 of spec/00_scope.md and spec/10_state.md.

The parameter `WORD` of R5 is OPEN (D11, U6): "opaque type with decidable equality and a distinguished value `EMPTY`".
The model takes it as an ARGUMENT: a type `W` with `[DecidableEq W]` and `[Inhabited W]`, whose `default` is `EMPTY`.
Commands, state, operations and meanings are written over every such `W`, so nothing in them can look inside a word;
`stepOf` (Machine/AnyWord.lean) is the machine at any `W`. The host's fixed names (`Instr`, `State`, `exec`, `step`,
`core`) have no argument: they are that machine at the one type `WORD` below. -/

namespace Sys2Proof

/-- The value of the argument `WORD` (R5) that the host's fixed names stand for. DESIGN CHOICE (log entry 1): a word
is a finite list of code units, each a natural number, so that every character set and code unit width fits and there
is no length bound; the empty word is the derived default. -/
structure WORD where
  units : List Nat
deriving DecidableEq, Repr, Inhabited

/-- `EMPTY`, the distinguished value of the word type, "the empty string" (R5, R122). -/
def EMPTY {W : Type} [Inhabited W] : W := default

/-- A word written as a Lean string: its code units are the characters' code points (log entry 1). Used only to
write down the eight words of R126 and the tests. -/
def WORD.ofString (t : String) : WORD := ⟨t.toList.map Char.toNat⟩

/-- `BYTE_W = 8`: one input unit of the encoder and output unit of the decoder (R5). -/
abbrev Byte := BitVec 8

/-- `IDX_W = 11`: a word index, "each word's position defining its 11-bit index" (R5). -/
abbrev Index := BitVec 11

/-- `ACC_W = 18`: an accumulator register (R5, R22, R25, R26). -/
abbrev Acc := BitVec 18

/-- `CNT_W = 5`: a bit-count register (R5, R23, R27). -/
abbrev Cnt := BitVec 5

/-- `TBL.ROM` of R31: 2048 entries of the word type, entry `i` the word with index `i`. Every one of the 2048
indices holds a word (R51), so there is no unlisted address; two tables with the same contents are equal data. -/
abbrev Table (W : Type := WORD) := Vector W 2048

end Sys2Proof
end

