-- ==== Sys2Proof/Config.lean ====
section
/-! DEFINITION. The free values of the model: what spec/93_implementation_defined.md (U1, U2) calls "any value".
Neither has a body, so nothing can be proved of what it is. The parameter `WORD` (R5, D11, U6) is the type argument
`W` of the model's definitions (Word.lean). The word list itself (`WORDLIST`, R5, R33) is no
constant here either: it is the operand of `TBL.LOAD`, and every statement holds for every list. -/

namespace Sys2Proof

/-- What `DEC.HOLD` holds while `DEC.HV = 0`, after the `n`-th event that leaves it unspecified (`DEC.END`, `RESET`:
R28, R38, R165, U1). FREE VALUE (log entry 3). -/
opaque Config.freeHold : Nat → Byte

/-- The word at index `i` of `TBL.ROM` after the `n`-th event that leaves the table unspecified (`RESET`, a
`TBL.LOAD` that halts: R31, R38, R192, U2). FREE VALUE (log entry 4). -/
opaque Config.freeRomWord {W : Type} [Inhabited W] : Nat → Nat → W

end Sys2Proof
end

