-- ==== Sys2Proof/Syntax.lean ====
section
/-! DEFINITION. The command set whole: the nine commands of R92 (spec/30_encoding.md, spec/opcode_table.json), the
two raw command formats `C` and `S` of R80, R81 and R84, and what the host presents to the block at one step. -/

namespace Sys2Proof

/-- The nine commands of R92, one constructor for each row of spec/opcode_table.json. `W` is the argument for the word
type (R5), here and below; left out, it is `WORD`. -/
inductive Instr (W : Type := WORD) where
  /-- `ENC.PUSH b` (R142). -/
  | encPush (b : Byte)
  /-- `ENC.END` (R143). -/
  | encEnd
  /-- `DEC.PUSH i` (R162). -/
  | decPush (i : Index)
  /-- `DEC.MISS` (R163). -/
  | decMiss
  /-- `DEC.END` (R165). -/
  | decEnd
  /-- `TBL.RD i` (R123). -/
  | tblRd (i : Index)
  /-- `TBL.LOAD src` (R121). -/
  | tblLoad (src : List W)
  /-- `TBL.LOOKUP w` (R124). -/
  | tblLookup (w : W)
  /-- `DEC.WORD w` (R164). -/
  | decWord (w : W)
deriving DecidableEq, Repr

/-- The payload of a format `S` command (R84): "an ordered finite list of `WORD` values, any length", or "one
`WORD`". How it is put on wires is OPEN (D11). -/
inductive Payload (W : Type := WORD) where
  | list (src : List W)
  | one (w : W)
deriving DecidableEq, Repr

/-- A command as the host sends it, before decoding (R80): a 14-bit word of format `C` (R81), or a 2-bit header
`sop` with a payload, format `S` (R84). -/
inductive RawCommand (W : Type := WORD) where
  | c (word : BitVec 14)
  | s (sop : BitVec 2) (payload : Payload W)
deriving DecidableEq, Repr

/-- What the host presents to the block at one step: the `RESET` event (R220: "an input event of the block, not a
command"), a command, both at the same time (R197 (a)), or neither. -/
structure HostEvent (W : Type := WORD) where
  reset : Bool
  command : Option (RawCommand W)
deriving DecidableEq, Repr

/-- The names of the rows of R92. -/
inductive Mnemonic where
  | ENC_PUSH | ENC_END | DEC_PUSH | DEC_MISS | DEC_END | TBL_RD | TBL_LOAD | TBL_LOOKUP | DEC_WORD
deriving DecidableEq, Repr

/-- The row of R92 a command belongs to. -/
def Instr.mnemonic {W : Type} : Instr W → Mnemonic
  | .encPush _ => .ENC_PUSH
  | .encEnd => .ENC_END
  | .decPush _ => .DEC_PUSH
  | .decMiss => .DEC_MISS
  | .decEnd => .DEC_END
  | .tblRd _ => .TBL_RD
  | .tblLoad _ => .TBL_LOAD
  | .tblLookup _ => .TBL_LOOKUP
  | .decWord _ => .DEC_WORD

end Sys2Proof
end

