-- ==== Sys2Proof/WellFormed.lean ====
section
/-! DEFINITION. Well-formed commands. A command as SENT is well-formed when its encoding is not reserved (R104); the
four checks below are R104's list, written as ranges, apart from the decoder's own reading of the same words. A
command as SYNTAX is always well-formed: "Data values are never reserved" (R105), so every operand a constructor of
`Instr` can hold is legal. -/

namespace Sys2Proof

/-- R104: format `C` words with `opc` = `0b110` or `0b111` (0x3000..0x3FFF) are reserved. -/
def opcodeOk (x : BitVec 14) : Bool := decide (x.toNat < 0x3000)

/-- R104: `ENC.PUSH` with `opd[10:8] != 0` (0x0100..0x07FF) and `ENC.END`, `DEC.MISS`, `DEC.END` with `opd != 0`
(0x0801..0x0FFF, 0x1801..0x1FFF, 0x2001..0x27FF) are reserved. -/
def operandOk (x : BitVec 14) : Bool :=
  !(decide (0x0100 ≤ x.toNat ∧ x.toNat ≤ 0x07FF)
    || decide (0x0801 ≤ x.toNat ∧ x.toNat ≤ 0x0FFF)
    || decide (0x1801 ≤ x.toNat ∧ x.toNat ≤ 0x1FFF)
    || decide (0x2001 ≤ x.toNat ∧ x.toNat ≤ 0x27FF))

/-- R104: format `S` with `sop = 0b11` is reserved. -/
def headerOk (sop : BitVec 2) : Bool := decide (sop ≠ 3#2)

/-- R84: header `0b00` carries a list of words, headers `0b01` and `0b10` carry one word. A payload of the other
kind is no encoding of R92 (log entry 6). -/
def payloadOk {W : Type} (sop : BitVec 2) : Payload W → Bool
  | .list _ => decide (sop ≠ 1#2 ∧ sop ≠ 2#2)
  | .one _ => decide (sop ≠ 0#2)

/-- The command is one of R92's encodings, not a reserved one (R104). -/
def RawCommand.wellFormed {W : Type} : RawCommand W → Bool
  | .c x => opcodeOk x && operandOk x
  | .s sop p => headerOk sop && payloadOk sop p

/-- R105: "All 256 byte values are legal operands of `ENC.PUSH` ..., all 2048 index values are legal operands of
`DEC.PUSH` and `TBL.RD`, and every `WORD` value is a legal operand of `TBL.LOOKUP` and `DEC.WORD`"; R121: `src` has
"any length, including 0". -/
def Instr.wellFormed {W : Type} : Instr W → Bool
  | .encPush _ => true
  | .encEnd => true
  | .decPush _ => true
  | .decMiss => true
  | .decEnd => true
  | .tblRd _ => true
  | .tblLoad _ => true
  | .tblLookup _ => true
  | .decWord _ => true

end Sys2Proof
end

