-- ==== Sys2Proof/Decode.lean ====
section
/-! DEFINITION. Decoding a command (R93, total: a command or a reserved encoding, by name), the encoder (R92, R93),
the opcode map of R92 as a table of match and mask, and the host's numbering of the opcode table's bits. -/

namespace Sys2Proof

/-- Why an encoding is reserved (R104), the decoder's rejection by name. -/
inductive Reserved where
  /-- Format `C`, `opc` = `0b110` or `0b111`. -/
  | opcode
  /-- Format `C`, a must-be-zero operand bit is set. -/
  | operand
  /-- Format `S`, `sop = 0b11`. -/
  | header
  /-- Format `S`, the payload is not of the kind the header carries (R84; log entry 6). -/
  | payload
deriving DecidableEq, Repr

/-- `opc = x[13:11]` (R81). -/
def opcOf (x : BitVec 14) : BitVec 3 := x.extractLsb' 11 3

/-- `opd = x[10:0]` (R81). -/
def opdOf (x : BitVec 14) : BitVec 11 := x.extractLsb' 0 11

/-- `opd[10:8]`, which `ENC.PUSH` wants zero (R82). -/
def opdHigh (opd : BitVec 11) : BitVec 3 := opd.extractLsb' 8 3

/-- `b = opd[7:0]`, the data byte of `ENC.PUSH` (R82). -/
def opdByte (opd : BitVec 11) : Byte := opd.extractLsb' 0 8

/-- A command without operand: its `opd` must be zero (R83). -/
def noOperand {W : Type} (i : Instr W) (opd : BitVec 11) : Except Reserved (Instr W) :=
  if opd = 0#11 then .ok i else .error .operand

/-- Decoding a format `C` word (R93). -/
def decodeC {W : Type} (x : BitVec 14) : Except Reserved (Instr W) :=
  match (opcOf x).toNat with
  | 0 => if opdHigh (opdOf x) = 0#3 then .ok (.encPush (opdByte (opdOf x))) else .error .operand
  | 1 => noOperand .encEnd (opdOf x)
  | 2 => .ok (.decPush (opdOf x))
  | 3 => noOperand .decMiss (opdOf x)
  | 4 => noOperand .decEnd (opdOf x)
  | 5 => .ok (.tblRd (opdOf x))
  | _ => .error .opcode

/-- Decoding a format `S` command (R84). -/
def decodeS {W : Type} (sop : BitVec 2) (p : Payload W) : Except Reserved (Instr W) :=
  match sop.toNat, p with
  | 0, .list src => .ok (.tblLoad src)
  | 1, .one w => .ok (.tblLookup w)
  | 2, .one w => .ok (.decWord w)
  | 3, _ => .error .header
  | _, _ => .error .payload

/-- Decoding a command: "a total function to 'a command' or 'reserved'" (R93). -/
def decode {W : Type} : RawCommand W → Except Reserved (Instr W)
  | .c x => decodeC x
  | .s sop p => decodeS sop p

/-- The encoding of a command, written from the patterns of R92: three opcode bits and eleven operand bits, or the
two header bits and the payload. -/
def encode {W : Type} : Instr W → RawCommand W
  | .encPush b => .c (0b000#3 ++ 0b000#3 ++ b)
  | .encEnd => .c (0b001#3 ++ 0#11)
  | .decPush i => .c (0b010#3 ++ i)
  | .decMiss => .c (0b011#3 ++ 0#11)
  | .decEnd => .c (0b100#3 ++ 0#11)
  | .tblRd i => .c (0b101#3 ++ i)
  | .tblLoad src => .s 0b00#2 (.list src)
  | .tblLookup w => .s 0b01#2 (.one w)
  | .decWord w => .s 0b10#2 (.one w)

/-- The two command formats of R80. -/
inductive Format where
  | C
  | S
deriving DecidableEq, Repr

/-- One row of the opcode map R92: a word `x` selects the row when `(x & mask) == match`. -/
structure OpcodeRow where
  mnemonic : Mnemonic
  format : Format
  value : Nat
  mask : Nat
deriving DecidableEq, Repr

/-- The opcode map of R92, row by row. -/
def opcodeRows : List OpcodeRow :=
  [ ⟨.ENC_PUSH, .C, 0x0000, 0x3F00⟩,
    ⟨.ENC_END, .C, 0x0800, 0x3FFF⟩,
    ⟨.DEC_PUSH, .C, 0x1000, 0x3800⟩,
    ⟨.DEC_MISS, .C, 0x1800, 0x3FFF⟩,
    ⟨.DEC_END, .C, 0x2000, 0x3FFF⟩,
    ⟨.TBL_RD, .C, 0x2800, 0x3800⟩,
    ⟨.TBL_LOAD, .S, 0x0, 0x3⟩,
    ⟨.TBL_LOOKUP, .S, 0x1, 0x3⟩,
    ⟨.DEC_WORD, .S, 0x2, 0x3⟩ ]

/-- The row is selected by the number `x` in the format (R92). -/
def OpcodeRow.selects (r : OpcodeRow) (f : Format) (x : Nat) : Bool :=
  decide (r.format = f) && decide (x &&& r.mask = r.value)

/-- The payload of zeros for a header: an empty list for `TBL.LOAD`, the word `EMPTY` for the others (log entry 8). -/
def zeroPayload (sop : BitVec 2) : Payload :=
  if sop = 0#2 then .list [] else .one EMPTY

/-- The command whose table bits are `w`, numbered as spec/opcode_table.json numbers them: rows of 14 bits (16 in
whole bytes) are format `C` words, rows of 2 bits (8 in whole bytes) are format `S` headers with a payload of
zeros. A number with a bit above the format's own bits set is no command. -/
def tableCommand (nbits w : Nat) : Option RawCommand :=
  if nbits ≤ 8 then
    if w < 4 then some (.s (BitVec.ofNat 2 w) (zeroPayload (BitVec.ofNat 2 w))) else none
  else
    if w < 16384 then some (.c (BitVec.ofNat 14 w)) else none

/-- The command the decoder reads from table bits `w` (none where it refuses). -/
def decodeTableWord (nbits w : Nat) : Option Instr :=
  match tableCommand nbits w with
  | none => none
  | some c =>
    match decode c with
    | .ok i => some i
    | .error _ => none

end Sys2Proof
end

