-- ==== Sys2Proof/Machine/State.lean ====
section
/-! DEFINITION. The state of one block (R20), plain data, with the value of every field after `RESET` (R38), and the
reasons a step can stop. -/

namespace Sys2Proof.Machine

/-- `MODE`, the three life-cycle values of R21. -/
inductive Mode where
  /-- After `RESET`: the table is not loaded. -/
  | unconfigured
  /-- The table was loaded and found valid. -/
  | ready
  /-- The table load failed: nothing is accepted until `RESET`. -/
  | halted
deriving DecidableEq, Repr

/-- The registers of the encoder unit `ENC` (R22, R23, R24). -/
structure EncUnit where
  /-- `ENC.ACC`, 18 bits (R22). -/
  acc : Acc
  /-- `ENC.CNT`, 5 bits (R23). -/
  cnt : Cnt
  /-- `ENC.ANY`, 1 bit (R24). -/
  any : Bool
deriving DecidableEq, Repr

/-- The registers of the decoder unit `DEC` (R25, R27, R28, R29). -/
structure DecUnit where
  /-- `DEC.ACC`, 18 bits (R25). -/
  acc : Acc
  /-- `DEC.CNT`, 5 bits (R27). -/
  cnt : Cnt
  /-- `DEC.HOLD`, 8 bits (R28); unspecified while `DEC.HV = 0`. -/
  hold : Byte
  /-- `DEC.HV`, 1 bit (R29). -/
  hv : Bool
deriving DecidableEq, Repr

/-- A beat of `ENC_OUT` (R88): a word index, or end of message. -/
inductive EncBeat where
  | W (idx : Index)
  | EOM
deriving DecidableEq, Repr

/-- A beat of `DEC_OUT` (R89): a byte, or end of message. -/
inductive DecBeat where
  | B (byte : Byte)
  | EOM
deriving DecidableEq, Repr

/-- A beat of `LKP_OUT` (R90): whether the word was found, and the index field. -/
structure LkpBeat where
  hit : Bool
  idx : Index
deriving DecidableEq, Repr

/-- The state. `mode`, `rom`, `enc` and `dec` are the block's own state, R20's list (`CFG_OK` and `CFG_ERR`, "pure
functions of `MODE`", are computed in Machine/Flags.lean). The other fields are not state of the block (R33); the
model keeps them as R33 allows: the four streams as "an event history", the input still to come, and the counter of
the free values (log entries 2 and 3); and the ghost number that tells where on `DEC_OUT` the last `RESET` fell (R37).
`W` is the argument for the word type (R5); left out, it is `WORD`. -/
structure State (W : Type := WORD) where
  /-- `MODE` (R21). -/
  mode : Mode
  /-- `TBL.ROM` (R31). -/
  rom : Table W
  /-- `ENC.ACC`, `ENC.CNT`, `ENC.ANY`. -/
  enc : EncUnit
  /-- `DEC.ACC`, `DEC.CNT`, `DEC.HOLD`, `DEC.HV`. -/
  dec : DecUnit
  /-- `ENC_OUT`, every beat so far, oldest first (R12, R33). -/
  encOut : List EncBeat
  /-- `DEC_OUT`, every beat so far, oldest first. -/
  decOut : List DecBeat
  /-- MODEL'S OWN, ghost: how many beats `DEC_OUT` had when the last `RESET` came, so that "since the last `EOM` (or
  since reset)" can be said (R37). No rule reads it (log entry 2). -/
  decOutAtReset : Nat
  /-- `LKP_OUT`, every beat so far, oldest first. -/
  lkpOut : List LkpBeat
  /-- `TBL_OUT`, every beat so far, oldest first (R91: a beat is one word). -/
  tblOut : List W
  /-- What the host presents from here on, in issue order (R30, R33: "the input still to come"). -/
  input : List (HostEvent W)
  /-- MODEL'S OWN: how many times an unspecified value has been drawn (log entry 3). -/
  freeCtr : Nat
deriving DecidableEq, Repr

/-- The encoder unit in its initial state (R38: after `RESET` and after `ENC.END`). -/
def EncUnit.init : EncUnit := ⟨0#18, 0#5, false⟩

/-- The decoder unit in its initial state, with `DEC.HOLD` at the given unspecified value (R38). -/
def DecUnit.init (h : Byte) : DecUnit := ⟨0#18, 0#5, h, false⟩

/-- The machine right after `RESET` (R38, R220) at any word type, no output made and no input waiting. R38 calls `DEC.HOLD` and
`TBL.ROM` unspecified: DESIGN CHOICE (log entries 3 and 4): 0x00 and 2048 times `EMPTY` here; the free counter
starts at 0 (log entry 3). The `RESET` EVENT (`resetBlock`, Machine/Ops.lean) leaves them free values. -/
def State.resetOf (W : Type) [Inhabited W] : State W where
  mode := .unconfigured
  rom := Vector.replicate 2048 EMPTY
  enc := .init
  dec := .init 0#8
  encOut := []
  decOut := []
  decOutAtReset := 0
  lkpOut := []
  tblOut := []
  input := []
  freeCtr := 0

/-- The machine right after `RESET`, at the word type `WORD`. -/
def State.reset : State := State.resetOf WORD

/-- No command faults out of the machine: the block's one fault, `ConfigurationError`, has a described entry (R192:
`MODE <- HALTED`), which the model TAKES as a next state (log entry 5), and "A model must not add any other fault"
(R190). So there is no reason of this kind. -/
inductive Fault where
deriving DecidableEq, Repr

/-- The reasons a command is refused (R8: "gives it no step ... never invent a result"). Each is safe: the model
stops where the spec gives no next state. -/
inductive Refusal where
  /-- Raised by an arm of `exec` whose instruction has no meaning yet. Safe. None is left. -/
  | notModelled (mnemonic : String)
  /-- Raised by every command that R196 does not accept in the current `MODE`. Safe: R8, R196, U5. -/
  | wrongMode (mode : Mode)
  /-- Raised by a step on a reserved encoding, whose kind the decoder names. Safe: R104, U4. -/
  | reservedEncoding (why : Reserved)
deriving DecidableEq, Repr

end Sys2Proof.Machine
end

