-- ==== Sys2Proof/Machine/Operands.lean ====
section
/-! DEFINITION. Constants and operand forms: the three fixed values of R5, the bit helpers of R10, appending a unit
to an accumulator and taking the top bits from it (R55), and the terminator word (R86). -/

namespace Sys2Proof.Machine

/-- `TERM_EXACT = 1024 = 0b10000000000`, the exact-boundary terminator (R5). -/
def TERM_EXACT : Index := 0b10000000000#11

/-- `MISS_IDX = 2047 = 0b11111111111`, exactly eleven `1` bits (R5, D9). -/
def MISS_IDX : Index := 0b11111111111#11

/-- `STRIP_BYTE = 0x80` (R5). -/
def STRIP_BYTE : Byte := 0x80#8

/-- `ones(k)`, "`(1 << k) - 1`, the `k`-bit all-ones value" (R10), at the accumulator's width. -/
def ones (k : Nat) : Acc := (1#18 <<< k) - 1#18

/-- `(ENC.ACC << 8) | zext_18(b)` (R142): a byte enters at the low end (R55). -/
def appendByte (acc : Acc) (b : Byte) : Acc := (acc <<< 8) ||| b.zeroExtend 18

/-- `(DEC.ACC << 11) | zext_18(i)` (R162): an index enters at the low end (R55). -/
def appendIndex (acc : Acc) (i : Index) : Acc := (acc <<< 11) ||| i.zeroExtend 18

/-- `(ENC.ACC >> ENC.CNT)[10:0]`, the top 11 valid bits when `rest` bits lie below them (R142, R55). -/
def topIndex (acc : Acc) (rest : Cnt) : Index := (acc >>> rest.toNat).extractLsb' 0 11

/-- `(DEC.ACC >> DEC.CNT)[7:0]`, the top 8 valid bits when `rest` bits lie below them (R162, R55). -/
def topByte (acc : Acc) (rest : Cnt) : Byte := (acc >>> rest.toNat).extractLsb' 0 8

/-- `ACC & ones(CNT)`: "keep the remaining low bits only" (R142, R162). -/
def keepLow (acc : Acc) (rest : Cnt) : Acc := acc &&& ones rest.toNat

/-- The terminator word `((ACC << (11 - r)) | (1 << (10 - r)))[10:0]` for `r` leftover bits in `acc` (R86, R143). -/
def terminator (acc : Acc) (r : Cnt) : Index :=
  ((acc <<< (11 - r.toNat)) ||| (1#18 <<< (10 - r.toNat))).extractLsb' 0 11

end Sys2Proof.Machine
end

