-- ==== Sys2Proof/Machine/Flags.lean ====
section
/-! DEFINITION. The status of the block: the mode's encoding (R21), the level outputs `CFG_OK` and `CFG_ERR` (R32),
and the strip condition of `DEC.END` (R165). There are no condition codes: "No flag is set by any arithmetic result"
(R145, R167). The two message flags `ENC.ANY` and `DEC.HV` are registers, written by the commands' own rules. -/

namespace Sys2Proof.Machine

/-- `UNCONFIGURED = 0b00`, `READY = 0b01`, `HALTED = 0b10` (R21); `0b11` is never produced. -/
def Mode.bits : Mode → BitVec 2
  | .unconfigured => 0b00#2
  | .ready => 0b01#2
  | .halted => 0b10#2

/-- `CFG_OK = (MODE == READY)` (R32). -/
def State.cfgOk {W : Type} (s : State W) : Bool := decide (s.mode = .ready)

/-- `CFG_ERR = (MODE == HALTED)` (R32). -/
def State.cfgErr {W : Type} (s : State W) : Bool := decide (s.mode = .halted)

/-- The two strip conditions of `DEC.END`, a conjunction (R165, R197 (e)): the accumulator's VALUE is zero, whatever
`DEC.CNT` is (D7), and the held byte is `0x80`. -/
def DecUnit.strips (d : DecUnit) : Bool := decide (d.acc = 0#18) && decide (d.hold = STRIP_BYTE)

end Sys2Proof.Machine
end

