-- ==== Sys2Proof/Machine/Ops.lean ====
section
/-! DEFINITION. The shared operations: writing a unit, emitting beats (R12), the table's two lookups and its validity
test (R12, R122), the mode check (R196), the fault entry (R192), the `RESET` event (R220), taking the next event
from the host, and the step around a command. -/

namespace Sys2Proof.Machine

variable {W : Type}

/-- Write the encoder's registers. -/
def State.setEnc (s : State W) (e : EncUnit) : State W := { s with enc := e }

/-- Write the decoder's registers. -/
def State.setDec (s : State W) (d : DecUnit) : State W := { s with dec := d }

/-- `emit ENC_OUT`, each beat in turn (R12). -/
def State.emitEnc (s : State W) (bs : List EncBeat) : State W := { s with encOut := s.encOut ++ bs }

/-- `emit DEC_OUT`, each beat in turn (R12). -/
def State.emitDec (s : State W) (bs : List DecBeat) : State W := { s with decOut := s.decOut ++ bs }

/-- `emit LKP_OUT (hit, idx)` (R12). -/
def State.emitLkp (s : State W) (b : LkpBeat) : State W := { s with lkpOut := s.lkpOut ++ [b] }

/-- `emit TBL_OUT w` (R12). -/
def State.emitTbl (s : State W) (w : W) : State W := { s with tblOut := s.tblOut ++ [w] }

/-- Count one draw of unspecified values, so that the next draw is a fresh one (log entry 3). -/
def State.drawn (s : State W) : State W := { s with freeCtr := s.freeCtr + 1 }

/-- A table whose contents are unspecified, drawn at count `n` (R31, U2; FREE VALUE, log entry 4). Irreducible: no
proof has a reason to open it. -/
@[irreducible] def freeTable [Inhabited W] (n : Nat) : Table W := Vector.ofFn fun i => Config.freeRomWord n i.val

/-- `TblRead(i)`, the source's `wordAt`: "total function, always defined" (R12, R50). -/
def tblRead (t : Table W) (i : Index) : W := t[i.toNat]'i.isLt

/-- `TblFind(w)`, the source's `indexOf`: the index of the entry equal to `w`, or `None` (R12, R128). Exact equality,
no folding or trimming. In a valid table there is at most one such entry (V3). -/
def tblFind [DecidableEq W] (t : Table W) (w : W) : Option Index :=
  (t.toList.findIdx? fun v => decide (v = w)).map (BitVec.ofNat 11)

/-- `sub(w)` of R161: the index of `w`, or `MISS_IDX` when no entry equals it. -/
def tblSub [DecidableEq W] (t : Table W) (w : W) : Index := (tblFind t w).getD MISS_IDX

/-- A valid word list: V1, V2 and V3 of R122 (the conjunction of C2). -/
def validWordList [DecidableEq W] [Inhabited W] (src : List W) : Bool :=
  decide (src.length = 2048) && src.all (fun w => decide (w ≠ EMPTY)) && decide src.Nodup

/-- The table `TBL.LOAD` stores, entry `i` being `src[i]`, when `src` is valid (R121); none when it is not. -/
def tableOf [DecidableEq W] [Inhabited W] (src : List W) : Option (Table W) :=
  if h : validWordList src = true then
    some ⟨⟨src⟩, by simp only [validWordList, Bool.and_eq_true, decide_eq_true_eq] at h; exact h.1.1⟩
  else none

/-- The mode check of R196: the command's rule applies in the one mode `m`, otherwise the command is refused. -/
def requireMode (m : Mode) (s : State W) (act : State W → State W) :
    Host.Outcome (State W) Fault Refusal :=
  if s.mode = m then .next (act s) else .refused (.wrongMode s.mode)

/-- FAULT ENTRY, `halt ConfigurationError` (R192): `MODE <- HALTED`; nothing is saved and no handler runs; `TBL.ROM`
is unspecified. The fault is precise and has no other effect. There is no return from it (R193); only `resetBlock`
leaves `HALTED`. -/
def haltConfigurationError [Inhabited W] (s : State W) : State W :=
  { s with mode := .halted, rom := freeTable s.freeCtr }.drawn

/-- The `RESET` event (R220), in every mode: every piece of state to the value of R38, `DEC.HOLD` and `TBL.ROM`
unspecified; no output beat. The ghost mark of R37 notes where on `DEC_OUT` it came. -/
def resetBlock [Inhabited W] (s : State W) : State W :=
  { s with
    mode := .unconfigured
    rom := freeTable s.freeCtr
    enc := .init
    dec := .init (Config.freeHold s.freeCtr)
    decOutAtReset := s.decOut.length }.drawn

/-- What the block meets at one step. -/
inductive Fetched (W : Type := WORD) where
  /-- The host presents nothing: the block does not act on its own (R6). -/
  | idle
  /-- The `RESET` event, which overrides a command presented at the same time (R197 (a)). -/
  | reset
  /-- A command. -/
  | command (c : RawCommand W)
deriving DecidableEq, Repr

/-- The next event in issue order (R7, R30), what it asks for, and the state with it taken from the input. -/
def fetch (s : State W) : Fetched W × State W :=
  match s.input with
  | [] => (.idle, s)
  | ev :: rest =>
    let s' := { s with input := rest }
    if ev.reset then (.reset, s')
    else
      match ev.command with
      | none => (.idle, s')
      | some c => (.command c, s')

/-- One step, given what runs a decoded command: the host's next event, taken whole (R7). Nothing presented changes
nothing (R6; log entry 7); `RESET` is the event of R220; a command's encoding is checked first, then its own rule with
its mode check runs (R197 (b)); a reserved encoding is refused (R104). -/
def stepWith [Inhabited W] (run : Instr W → State W → Host.Outcome (State W) Fault Refusal) (s : State W) :
    Host.Outcome (State W) Fault Refusal :=
  match fetch s with
  | (.idle, s') => .next s'
  | (.reset, s') => .next (resetBlock s')
  | (.command c, s') =>
    match decode c with
    | .ok i => run i s'
    | .error why => .refused (.reservedEncoding why)

/-- The event that presents the command with table bits `w` and no `RESET`. Bits that are no command (above the
format's own) are presented as the reserved header `0b11`, so that the step refuses them (log entry 8). -/
def tableEvent (nbits w : Nat) : HostEvent :=
  ⟨false, some ((tableCommand nbits w).getD (.s 3#2 (.list [])))⟩

end Sys2Proof.Machine
end

