-- ==== Sys2Proof/Machine/Decoder.lean ====
section
/-! DEFINITION. The decoder's commands `DEC.PUSH`, `DEC.MISS`, `DEC.WORD` and `DEC.END` (spec/42_decoder.md). -/

namespace Sys2Proof.Machine

variable {W : Type}

/-- The held byte, released: one beat when `DEC.HV = 1`, none otherwise (R162, R165). -/
def heldBeats (d : DecUnit) : List DecBeat := if d.hv then [.B d.hold] else []

/-- One pass of the loop of `DEC.PUSH` (R162): take the top 8 bits as the byte `y`, keep the rest, release the
previous byte, hold `y`. -/
def decPass (d : DecUnit) : DecUnit × List DecBeat :=
  let rest := d.cnt - 8#5
  (⟨keepLow d.acc rest, rest, topByte d.acc rest, true⟩, heldBeats d)

/-- `while DEC.CNT >= 8 do` one pass (R162), at most `n` times. Each pass takes 8 from a 5-bit count, so 3 passes are
always enough; from a unit that meets the invariant there are one or two. -/
def decDrain : Nat → DecUnit → DecUnit × List DecBeat
  | 0, d => (d, [])
  | n + 1, d =>
    if 8#5 ≤ d.cnt then
      let p := decPass d
      let q := decDrain n p.1
      (q.1, p.2 ++ q.2)
    else (d, [])

/-- The body of `DEC.PUSH` (R162) on the unit's registers, with the beats it emits: append the index, then extract
every complete byte. -/
def decPushUnit (i : Index) (d : DecUnit) : DecUnit × List DecBeat :=
  decDrain 3 ⟨appendIndex d.acc i, d.cnt + 11#5, d.hold, d.hv⟩

/-- "The body of DEC.PUSH (R162)" on the state, which `DEC.MISS` and `DEC.WORD` perform too (R163, R164). -/
def decPushBody (i : Index) (s : State W) : State W :=
  (s.setDec (decPushUnit i s.dec).1).emitDec (decPushUnit i s.dec).2

/-- The beats of `DEC.END` (R165): the held byte unless the strip discards it, then `EOM`. -/
def decEndBeats (d : DecUnit) : List DecBeat :=
  if d.strips then [.EOM] else heldBeats d ++ [.EOM]

/-- `DEC.PUSH i` (R162). -/
def execDecPush (i : Index) (s : State W) : Host.Outcome (State W) Fault Refusal :=
  requireMode .ready s (decPushBody i)

/-- `DEC.MISS` (R163): the body of `DEC.PUSH` with `MISS_IDX`. No miss flag, counter or status bit exists. -/
def execDecMiss (s : State W) : Host.Outcome (State W) Fault Refusal :=
  requireMode .ready s (decPushBody MISS_IDX)

/-- `DEC.WORD w` (R164): the body of `DEC.PUSH` with the index of `w`, or with `MISS_IDX` when no entry equals it. -/
def execDecWord [DecidableEq W] (w : W) (s : State W) : Host.Outcome (State W) Fault Refusal :=
  requireMode .ready s fun s =>
    match tblFind s.rom w with
    | some i => decPushBody i s
    | none => decPushBody MISS_IDX s

/-- `DEC.END` (R165): the beats, and the unit back in its initial state; `DEC.HOLD` becomes unspecified (FREE VALUE,
log entry 3). -/
def execDecEnd (s : State W) : Host.Outcome (State W) Fault Refusal :=
  requireMode .ready s fun s =>
    ((s.setDec (.init (Config.freeHold s.freeCtr))).emitDec (decEndBeats s.dec)).drawn

end Sys2Proof.Machine
end

