-- ==== Sys2Proof/Machine/Encoder.lean ====
section
/-! DEFINITION. The encoder's commands `ENC.PUSH` and `ENC.END` (spec/41_encoder.md). -/

namespace Sys2Proof.Machine

variable {W : Type}

/-- The body of `ENC.PUSH` (R142) on the unit's registers, with the beats it emits: append the byte, set `ANY`, and
when 11 bits are there take the top 11 as a word index and keep the rest. -/
def encPushUnit (b : Byte) (e : EncUnit) : EncUnit × List EncBeat :=
  let acc := appendByte e.acc b
  let cnt := e.cnt + 8#5
  if 11#5 ≤ cnt then
    let rest := cnt - 11#5
    (⟨keepLow acc rest, rest, true⟩, [.W (topIndex acc rest)])
  else
    (⟨acc, cnt, true⟩, [])

/-- The beats of `ENC.END` (R143): the terminator word in one of the source's three cases, then `EOM`. -/
def encEndBeats (e : EncUnit) : List EncBeat :=
  if e.cnt ≠ 0#5 then [.W (terminator e.acc e.cnt), .EOM]
  else if e.any then [.W TERM_EXACT, .EOM]
  else [.EOM]

/-- `ENC.PUSH b` (R142). -/
def execEncPush (b : Byte) (s : State W) : Host.Outcome (State W) Fault Refusal :=
  requireMode .ready s fun s =>
    (s.setEnc (encPushUnit b s.enc).1).emitEnc (encPushUnit b s.enc).2

/-- `ENC.END` (R143): the beats, and the unit back in its initial state. -/
def execEncEnd (s : State W) : Host.Outcome (State W) Fault Refusal :=
  requireMode .ready s fun s => (s.setEnc .init).emitEnc (encEndBeats s.enc)

end Sys2Proof.Machine
end

