-- ==== Sys2Proof/Machine/TableCommands.lean ====
section
/-! DEFINITION. The word-list table's commands `TBL.LOAD`, `TBL.RD` and `TBL.LOOKUP` (spec/40_wordlist_table.md). -/

namespace Sys2Proof.Machine

variable {W : Type}

/-- `TBL.LOAD src` (R121): the mode is checked before `src` is validated (R197 (c)); a valid list is stored and
`MODE` becomes `READY`, an invalid one halts the block (R192). No output beat. -/
def execTblLoad [DecidableEq W] [Inhabited W] (src : List W) (s : State W) : Host.Outcome (State W) Fault Refusal :=
  requireMode .unconfigured s fun s =>
    match tableOf src with
    | some t => { s with rom := t, mode := .ready }
    | none => haltConfigurationError s

/-- `TBL.RD i` (R123). -/
def execTblRd (i : Index) (s : State W) : Host.Outcome (State W) Fault Refusal :=
  requireMode .ready s fun s => s.emitTbl (tblRead s.rom i)

/-- `TBL.LOOKUP w` (R124): a hit with the index, or a miss with the index field `0b11111111111` (R90). -/
def execTblLookup [DecidableEq W] (w : W) (s : State W) : Host.Outcome (State W) Fault Refusal :=
  requireMode .ready s fun s =>
    match tblFind s.rom w with
    | some i => s.emitLkp ⟨true, i⟩
    | none => s.emitLkp ⟨false, MISS_IDX⟩

end Sys2Proof.Machine
end

