-- ==== Sys2Proof/Machine/Dispatch.lean ====
section
/-! DEFINITION. One arm per command of R92, each a direct call of the command's meaning. -/

namespace Sys2Proof.Machine

def exec (i : Instr) (s : State) : Host.Outcome State Fault Refusal :=
  match i with
  | .encPush b => Sys2Proof.Machine.execEncPush b s
  | .encEnd => Sys2Proof.Machine.execEncEnd s
  | .decPush k => Sys2Proof.Machine.execDecPush k s
  | .decMiss => Sys2Proof.Machine.execDecMiss s
  | .decEnd => Sys2Proof.Machine.execDecEnd s
  | .tblRd k => Sys2Proof.Machine.execTblRd k s
  | .tblLoad src => Sys2Proof.Machine.execTblLoad src s
  | .tblLookup w => Sys2Proof.Machine.execTblLookup w s
  | .decWord w => Sys2Proof.Machine.execDecWord w s

end Sys2Proof.Machine
end

