-- ==== Sys2Proof/Machine/Step.lean ====
section
/-! DEFINITION. One step of the machine: the host's next event, taken whole (R7). The encoding is checked first, then
the command's own rule with its mode check runs (R197 (b)). -/

namespace Sys2Proof.Machine

/-- One step (R6, R7, R104, R197, R220): `stepWith` of Machine/Ops.lean, a decoded command run by `exec`. -/
def step (s : State) : Host.Outcome State Fault Refusal := stepWith exec s

/-- `s` with the command of table bits `w` presented next by the host, before what it presents already. Nothing else
changes: the block has no stored program (R30), and `MODE` stays what it is, so the step refuses a command that R196
does not accept in it (log entry 8). -/
def State.withFetchWord (s : State) (nbits w : Nat) : State :=
  { s with input := tableEvent nbits w :: s.input }

end Sys2Proof.Machine
end

