-- ==== Sys2Proof/Machine/AnyWord.lean ====
section
/-! DEFINITION. The machine at any word type: `WORD` and `EMPTY` of R5 (D11, U6) as arguments, a type `W` with
decidable equality and a distinguished value. `exec` and `step`, whose types the host fixes, are `execOf` and `stepOf`
at `W := WORD` (`exec_eq_execOf` and `step_eq_stepOf`, Laws/Step.lean). -/

namespace Sys2Proof.Machine

variable {W : Type} [DecidableEq W] [Inhabited W]

/-- The meaning of every command of R92 at the word type `W`: the same meanings that `exec` calls. -/
def execOf (i : Instr W) (s : State W) : Host.Outcome (State W) Fault Refusal :=
  match i with
  | .encPush b => execEncPush b s
  | .encEnd => execEncEnd s
  | .decPush k => execDecPush k s
  | .decMiss => execDecMiss s
  | .decEnd => execDecEnd s
  | .tblRd k => execTblRd k s
  | .tblLoad src => execTblLoad src s
  | .tblLookup w => execTblLookup w s
  | .decWord w => execDecWord w s

/-- One step at the word type `W`. -/
def stepOf (s : State W) : Host.Outcome (State W) Fault Refusal := stepWith execOf s

end Sys2Proof.Machine
end

