-- ==== Sys2Proof/Machine/Reference.lean ====
section
/-! DEFINITION. The functions the block implements, on whole messages, written from the spec's formulas over bit
strings and not from the commands: `bits` (R14, R52, R53), `T(r, v)` (R86), `encode_idx` and `encode` (R140, R141),
`decode_idx` and `decode` (R160, R161), the length relations (R63, R64), what the source fixes of the word list
(R126), and the ghost sequence `E` (R37). The machine does not call them; the statements compare it with them. -/

namespace Sys2Proof.Machine.Ref

/-- One byte as bits, bit 7 first (R52). -/
def byteBits (b : Byte) : List Bool := (List.range 8).map b.getMsbD

/-- One index as bits, bit 10 first (R53). -/
def indexBits (i : Index) : List Bool := (List.range 11).map i.getMsbD

/-- `bits(s)` of a byte sequence (R14). -/
def bitsOfBytes (d : List Byte) : List Bool := d.flatMap byteBits

/-- `bits(s)` of a sequence of word indices (R14). -/
def bitsOfIndices (x : List Index) : List Bool := x.flatMap indexBits

/-- The number a bit string writes, first bit most significant. -/
def valueOf (bits : List Bool) : Nat := bits.foldl (fun n b => 2 * n + b.toNat) 0

/-- The number written by bits `n*k .. n*k + n - 1` of the string, first bit most significant (R85, R140, R160). -/
def group (n : Nat) (bits : List Bool) (k : Nat) : Nat := valueOf ((bits.drop (n * k)).take n)

/-- The terminator index `T(r, v) = (v << (11 - r)) | (1 << (10 - r))` (R86). -/
def T (r v : Nat) : Nat := (v <<< (11 - r)) ||| (1 <<< (10 - r))

/-- `encode_idx` (R140): the full groups, then the terminator word; nothing for the empty message. -/
def encodeIdx (d : List Byte) : List Index :=
  if d = [] then []
  else
    let q := 8 * d.length / 11
    (List.range q).map (fun k => BitVec.ofNat 11 (group 11 (bitsOfBytes d) k))
      ++ [BitVec.ofNat 11 (T (8 * d.length % 11) (valueOf ((bitsOfBytes d).drop (11 * q))))]

/-- `E` of R160: every complete byte of the index stream. -/
def rawBytes (x : List Index) : List Byte :=
  (List.range (11 * x.length / 8)).map fun k => BitVec.ofNat 8 (group 8 (bitsOfIndices x) k)

/-- `tail` of R160: the number written by the bits left over (0 when there are none). -/
def tailValue (x : List Index) : Nat := valueOf ((bitsOfIndices x).drop (8 * (11 * x.length / 8)))

/-- `decode_idx` (R160): the complete bytes, less the last one when it is `0x80` and the tail's value is zero. -/
def decodeIdx (x : List Index) : List Byte :=
  if tailValue x = 0 ∧ (rawBytes x).getLast? = some 0x80#8 then (rawBytes x).dropLast else rawBytes x

/-- `encode` (R141): every index read from the table. -/
def encodeWords {W : Type} (t : Table W) (d : List Byte) : List W := (encodeIdx d).map (tblRead t)

/-- `decode` (R161): every word looked up, with the miss index for a word the table does not hold. -/
def decodeWords {W : Type} [DecidableEq W] (t : Table W) (ws : List W) : List Byte := decodeIdx (ws.map (tblSub t))

/-- `words(n)` of R63. -/
def wordCount (n : Nat) : Nat := if n = 0 then 0 else 8 * n / 11 + 1

/-- The eight entries the source's vectors pin (R126). -/
def pinnedEntries : List (Nat × WORD) :=
  [ (4, .ofString "abend"), (12, .ofString "ablehnen"), (879, .ofString "hygiene"), (1503, .ofString "riegel"),
    (1781, .ofString "toilette"), (2016, .ofString "ziffer"), (2044, .ofString "zwilling"),
    (2047, .ofString "zyklus") ]

/-- A list that may be the parameter `WORDLIST`: valid (R122) and with the eight pinned entries (R126, D24). -/
def sourceWordList (src : List WORD) : Prop :=
  validWordList src = true ∧ ∀ p ∈ pinnedEntries, src[p.1]? = some p.2

/-- The `B` beats of a `DEC_OUT` stream since its last `EOM` (R37). -/
def bytesSinceEom (bs : List DecBeat) : List Byte :=
  bs.foldl (fun acc b => match b with | .EOM => [] | .B y => acc ++ [y]) []

/-- The bytes of the current decoder message that are out: "the `B` beats put on `DEC_OUT` since the last `EOM` (or
since reset)" (R37), whichever of the two came later. -/
def sentBytes {W : Type} (s : State W) : List Byte := bytesSinceEom (s.decOut.drop s.decOutAtReset)

/-- The ghost sequence `E` of R37: the bytes of the current decoder message that are out, then `[DEC.HOLD]` when
`DEC.HV = 1`. -/
def emitted {W : Type} (s : State W) : List Byte :=
  sentBytes s ++ (if s.dec.hv then [s.dec.hold] else [])

end Sys2Proof.Machine.Ref
end

