-- ==== Sys2Proof/Machine/Beats.lean ====
section
/-! DEFINITION. The output beats as bits (R88, R89, R90). A beat of `TBL_OUT` is one `WORD` (R91), whose bits are OPEN
(D11). -/

namespace Sys2Proof.Machine

/-- `ENC_OUT` beat, 12 bits: `W(i)` is `{0, i}`, `EOM` is `{1, 0b00000000000}` (R88). -/
def EncBeat.bits : EncBeat → BitVec 12
  | .W i => 0#1 ++ i
  | .EOM => 1#1 ++ 0#11

/-- `DEC_OUT` beat, 9 bits: `B(b)` is `{0, b}`, `EOM` is `{1, 0x00}` (R89). -/
def DecBeat.bits : DecBeat → BitVec 9
  | .B b => 0#1 ++ b
  | .EOM => 1#1 ++ 0#8

/-- `LKP_OUT` beat, 12 bits: bit 11 = `hit`, bits 10:0 = `idx` (R90). -/
def LkpBeat.bits (b : LkpBeat) : BitVec 12 := BitVec.ofBool b.hit ++ b.idx

end Sys2Proof.Machine
end

