-- ==== Sys2Proof/Machine/Trace.lean ====
section
/-! DEFINITION. The command traces of R107 as data (a list of host events), the macros of R108, and the trace syntax
of R107 as text. The machine does not call them. -/

namespace Sys2Proof.Machine.Trace

/-- The `RESET` event alone (R220). -/
def reset {W : Type} : HostEvent W := ⟨true, none⟩

/-- One command, encoded (R92), with no `RESET`. -/
def command {W : Type} (i : Instr W) : HostEvent W := ⟨false, some (encode i)⟩

/-- `enc.msg b0, ..., bn-1` (R108). -/
def encMsg {W : Type} (d : List Byte) : List (HostEvent W) := d.map (fun b => command (.encPush b)) ++ [command .encEnd]

/-- `dec.idx i0, ..., iw-1` (R108): an element written `?` (here `none`) expands to `dec.miss`. -/
def decIdx {W : Type} (x : List (Option Index)) : List (HostEvent W) :=
  x.map (fun o => command (match o with | some i => .decPush i | none => .decMiss)) ++ [command .decEnd]

/-- `dec.msg "w0", ..., "ww-1"` (R108). -/
def decMsg {W : Type} (ws : List W) : List (HostEvent W) := ws.map (fun w => command (.decWord w)) ++ [command .decEnd]

/-- The lower-case mnemonic of R107. -/
def mnemonicText : Mnemonic → String
  | .ENC_PUSH => "enc.push"
  | .ENC_END => "enc.end"
  | .DEC_PUSH => "dec.push"
  | .DEC_MISS => "dec.miss"
  | .DEC_END => "dec.end"
  | .TBL_RD => "tbl.rd"
  | .TBL_LOAD => "tbl.load"
  | .TBL_LOOKUP => "tbl.lookup"
  | .DEC_WORD => "dec.word"

/-- A word as text between double quotes (its code units as characters, log entry 1). -/
def wordText (w : WORD) : String := "\"" ++ String.ofList (w.units.map Char.ofNat) ++ "\""

/-- One line of a trace (R107), numbers in decimal; `name` is the name of the list `TBL.LOAD` gets. -/
def commandText (name : String) (i : Instr) : String :=
  mnemonicText i.mnemonic ++
    match i with
    | .encPush b => " " ++ toString b.toNat
    | .encEnd => ""
    | .decPush k => " " ++ toString k.toNat
    | .decMiss => ""
    | .decEnd => ""
    | .tblRd k => " " ++ toString k.toNat
    | .tblLoad _ => " " ++ name
    | .tblLookup w => " " ++ wordText w
    | .decWord w => " " ++ wordText w

/-- A beat of `ENC_OUT` as a trace writes it: `W(1781)`, `EOM` (R107). -/
def encBeatText : EncBeat → String
  | .W i => "W(" ++ toString i.toNat ++ ")"
  | .EOM => "EOM"

/-- The byte as `0x` and two hexadecimal digits in capitals. -/
def byteText (b : Byte) : String :=
  "0x" ++ String.ofList ([b.toNat / 16, b.toNat % 16].map fun n => (Nat.digitChar n).toUpper)

/-- A beat of `DEC_OUT` as a trace writes it: `B(0xDE)`, `EOM` (R107). -/
def decBeatText : DecBeat → String
  | .B b => "B(" ++ byteText b ++ ")"
  | .EOM => "EOM"

/-- A beat of `LKP_OUT` as a trace writes it: `hit(4)`, `miss` (R107). -/
def lkpBeatText (b : LkpBeat) : String := if b.hit then "hit(" ++ toString b.idx.toNat ++ ")" else "miss"

end Sys2Proof.Machine.Trace
end

