-- ==== Sys2Proof/Safety.lean ====
section
/-! DEFINITION. What counts as a good state and a complete run, in the terms the statements use: the invariants of
R34, the acceptance table of R196, the final states of R229, and the renaming of words. -/

namespace Sys2Proof.Machine

/-- I1, I2 and I3 of R34: the encoder between commands. -/
abbrev EncUnit.Inv (e : EncUnit) : Prop :=
  e.cnt.toNat ≤ 10 ∧ e.acc.toNat < 2 ^ e.cnt.toNat ∧ (e.any = false → e.cnt = 0#5 ∧ e.acc = 0#18)

/-- I4, I5 and I6 of R34: the decoder between commands. -/
abbrev DecUnit.Inv (d : DecUnit) : Prop :=
  d.cnt.toNat ≤ 7 ∧ d.acc.toNat < 2 ^ d.cnt.toNat ∧ (d.hv = false → d.cnt = 0#5 ∧ d.acc = 0#18)

/-- The decoder is in its initial state (R38): `DEC.HOLD` is unspecified and not looked at (U1). -/
abbrev DecUnit.Initial (d : DecUnit) : Prop := d.acc = 0#18 ∧ d.cnt = 0#5 ∧ d.hv = false

/-- I7 of R34: in `READY` the table is a valid word list (R122). This block has no byte memory (R50); this is the
form of its one memory. -/
abbrev State.RomWf {W : Type} [DecidableEq W] [Inhabited W] (s : State W) : Prop := s.mode = .ready → validWordList s.rom.toList = true

/-- The invariant between commands: I1 to I7 of R34 in `READY`, and outside `READY` both units in their initial state
(R192: "no command that changes them can have been accepted before a load"). The ghost part (R37): while no byte is
held, none of the current decoder message is out; and the mark of the last `RESET` lies inside the stream. -/
structure State.Inv {W : Type} [DecidableEq W] [Inhabited W] (s : State W) : Prop where
  enc : s.enc.Inv
  dec : s.dec.Inv
  rom : s.RomWf
  idle : s.mode ≠ .ready → s.enc = .init ∧ s.dec.Initial
  mark : s.decOutAtReset ≤ s.decOut.length
  sent : s.dec.hv = false → Ref.sentBytes s = []

/-- The acceptance table of R196: `TBL.LOAD` in `UNCONFIGURED`, every other command in `READY`. -/
def accepts : Instr → Mode → Bool
  | .tblLoad _, .unconfigured => true
  | .tblLoad _, .ready => false
  | .tblLoad _, .halted => false
  | _, .unconfigured => false
  | _, .ready => true
  | _, .halted => false

/-- V1, V2 and V3 of R122, written out: length 2048, no empty entry, all entries distinct. -/
def ValidList {W : Type} [Inhabited W] (src : List W) : Prop :=
  src.length = 2048 ∧ (∀ (i : Nat) (h : i < src.length), src[i] ≠ EMPTY) ∧
    ∀ (i j : Nat) (hi : i < src.length) (hj : j < src.length), i ≠ j → src[i] ≠ src[j]

/-- The commands of the encoder unit (R35). -/
def isEncCommand (i : Instr) : Bool :=
  match i.mnemonic with
  | .ENC_PUSH | .ENC_END => true
  | .DEC_PUSH | .DEC_MISS | .DEC_END | .DEC_WORD | .TBL_RD | .TBL_LOAD | .TBL_LOOKUP => false

/-- The commands of the decoder unit (R35). -/
def isDecCommand (i : Instr) : Bool :=
  match i.mnemonic with
  | .DEC_PUSH | .DEC_MISS | .DEC_END | .DEC_WORD => true
  | .ENC_PUSH | .ENC_END | .TBL_RD | .TBL_LOAD | .TBL_LOOKUP => false

/-- A final state of a run (R229): every message begun has been ended. -/
abbrev State.Final {W : Type} (s : State W) : Prop :=
  s.mode = .ready ∧ s.enc.any = false ∧ s.enc.cnt = 0#5 ∧ s.dec.hv = false ∧ s.dec.cnt = 0#5

/-- Two states agree on all the block's own state and outputs, `DEC.HOLD` only while it holds a byte (U1), the table
only where it can be read (U2), and the input. -/
structure State.Agrees {W : Type} (s t : State W) : Prop where
  mode : s.mode = t.mode
  rom : s.mode = .ready → s.rom = t.rom
  enc : s.enc = t.enc
  dec : s.dec.acc = t.dec.acc ∧ s.dec.cnt = t.dec.cnt ∧ s.dec.hv = t.dec.hv
  hold : s.dec.hv = true → s.dec.hold = t.dec.hold
  encOut : s.encOut = t.encOut
  decOut : s.decOut = t.decOut
  decOutAtReset : s.decOutAtReset = t.decOutAtReset
  lkpOut : s.lkpOut = t.lkpOut
  tblOut : s.tblOut = t.tblOut
  input : s.input = t.input

variable {W V : Type}

/-- Every word of a payload replaced by another (R5: the word type is opaque). -/
def renamePayload (f : W → V) : Payload W → Payload V
  | .list src => .list (src.map f)
  | .one w => .one (f w)

/-- Every word of a raw command replaced by another. -/
def renameRaw (f : W → V) : RawCommand W → RawCommand V
  | .c x => .c x
  | .s sop p => .s sop (renamePayload f p)

/-- Every word of a host event replaced by another. -/
def renameEvent (f : W → V) (ev : HostEvent W) : HostEvent V := ⟨ev.reset, ev.command.map (renameRaw f)⟩

/-- Every word of the table, of `TBL_OUT` and of the input replaced by another. -/
def renameState (f : W → V) (s : State W) : State V where
  mode := s.mode
  rom := s.rom.map f
  enc := s.enc
  dec := s.dec
  encOut := s.encOut
  decOut := s.decOut
  decOutAtReset := s.decOutAtReset
  lkpOut := s.lkpOut
  tblOut := s.tblOut.map f
  input := s.input.map (renameEvent f)
  freeCtr := s.freeCtr

end Sys2Proof.Machine
end

