-- ==== Sys2Proof/Certificates/Slice0/Obligations.lean ====
section
/-! DEFINITION. The statements for the provers. Each docstring names the rule of spec/ it comes from. A next state
written `.next { s with ... }` says the whole frame: every field not named is unchanged. -/

open Sys2Proof Sys2Proof.Machine Sys2Proof.Machine.Ref

/-! Reset, the step, the invariant -/

/-- R38: the values after `RESET` (of `State.reset` and of the `RESET` event) and after each unit's `END`. `DEC.HOLD`
and `TBL.ROM` are unspecified after them, so nothing is said of their values. -/
def Obligations.RegisterValuesAfterResetAndEnd : Prop :=
  (State.reset.mode = .unconfigured ∧ State.reset.enc = ⟨0#18, 0#5, false⟩ ∧ State.reset.dec.acc = 0#18 ∧
    State.reset.dec.cnt = 0#5 ∧ State.reset.dec.hv = false ∧ State.reset.cfgOk = false ∧
    State.reset.cfgErr = false) ∧
  (∀ (s : State) (c : Option RawCommand) (rest : List HostEvent), s.input = ⟨true, c⟩ :: rest →
    ∃ t, step s = .next t ∧ t.mode = .unconfigured ∧ t.enc = ⟨0#18, 0#5, false⟩ ∧ t.dec.acc = 0#18 ∧
      t.dec.cnt = 0#5 ∧ t.dec.hv = false ∧ t.cfgOk = false ∧ t.cfgErr = false) ∧
  (∀ s : State, s.mode = .ready → ∃ t, exec .encEnd s = .next t ∧ t.mode = .ready ∧ t.rom = s.rom ∧
    t.enc = ⟨0#18, 0#5, false⟩ ∧ t.dec = s.dec ∧ t.cfgOk = true ∧ t.cfgErr = false) ∧
  (∀ s : State, s.mode = .ready → ∃ t, exec .decEnd s = .next t ∧ t.mode = .ready ∧ t.rom = s.rom ∧
    t.enc = s.enc ∧ t.dec.acc = 0#18 ∧ t.dec.cnt = 0#5 ∧ t.dec.hv = false ∧ t.cfgOk = true ∧ t.cfgErr = false)

/-- R220, R197 (a): the `RESET` event in every mode, whatever command stands beside it; and it is the only way out of
`HALTED` and the only way to change a loaded table. -/
def Obligations.ResetEventClearsTheBlockInEveryMode : Prop :=
  (∀ (s : State) (c : Option RawCommand) (rest : List HostEvent), s.input = ⟨true, c⟩ :: rest →
    ∃ (h : Byte) (rom : Table) (n : Nat),
      step s = .next { s with
        mode := .unconfigured, rom := rom, enc := ⟨0#18, 0#5, false⟩, dec := ⟨0#18, 0#5, h, false⟩,
        input := rest, freeCtr := n, decOutAtReset := s.decOut.length } ∧
      ∀ t, step s = .next t → t.cfgOk = false ∧ t.cfgErr = false) ∧
  (∀ s t : State, step s = .next t → (∀ c rest, s.input ≠ ⟨true, c⟩ :: rest) →
    (s.mode = .halted → t.mode = .halted) ∧ (s.mode = .ready → t.rom = s.rom))

/-- The state after reset meets the invariant, and is not a final state (R229: "A run in `HALTED` or `UNCONFIGURED` is
not final"). -/
def Obligations.ResetStateMeetsTheInvariant : Prop :=
  State.reset.Inv ∧ ¬ State.reset.Final

/-- R34: every step keeps I1 to I7, from every state that meets them; and R37's ghost part of the invariant: while no
byte is held, no byte of the current decoder message is out. -/
def Obligations.EveryStepKeepsTheInvariant : Prop :=
  ∀ s t : State, s.Inv → step s = .next t → t.Inv

/-- A command that is presented alone and decodes is executed, on the state with it taken from the input. -/
def Obligations.StepRunsTheDecodedCommand : Prop :=
  ∀ (s : State) (c : RawCommand) (i : Instr) (rest : List HostEvent),
    s.input = ⟨false, some c⟩ :: rest → decode c = .ok i → step s = exec i { s with input := rest }

/-- R6: the block does not act on its own. When the host presents nothing, a step changes nothing (that such a step
exists is the model's choice, log entry 7). -/
def Obligations.NothingHappensWithoutTheHost : Prop :=
  (∀ s : State, s.input = [] → step s = .next s) ∧
  (∀ (s : State) (rest : List HostEvent), s.input = ⟨false, none⟩ :: rest →
    step s = .next { s with input := rest })

/-- R21: the mode's encoding, what each of `READY` and `HALTED` accepts, that each of the three transitions is taken,
and that no other exists: a step that is neither a `RESET` nor a `TBL.LOAD` in `UNCONFIGURED` keeps the mode. -/
def Obligations.ModeChangesOnlyByResetAndLoad : Prop :=
  Mode.unconfigured.bits = 0b00#2 ∧ Mode.ready.bits = 0b01#2 ∧ Mode.halted.bits = 0b10#2 ∧
  (∀ m : Mode, m.bits ≠ 0b11#2) ∧
  (∀ (i : Instr) (s : State), s.mode = .ready →
    ((∀ src, i ≠ .tblLoad src) ↔ ∃ t, exec i s = .next t)) ∧
  (∀ (i : Instr) (s : State), s.mode = .halted → exec i s = .refused (.wrongMode .halted)) ∧
  (∀ (s : State) (c : Option RawCommand) (rest : List HostEvent), s.input = ⟨true, c⟩ :: rest →
    ∃ t, step s = .next t ∧ t.mode = .unconfigured) ∧
  (∀ (s : State) (src : List WORD) (rest : List HostEvent), s.mode = .unconfigured →
    s.input = ⟨false, some (.s 0b00#2 (.list src))⟩ :: rest →
    (ValidList src → ∃ t, step s = .next t ∧ t.mode = .ready) ∧
    (¬ ValidList src → ∃ t, step s = .next t ∧ t.mode = .halted)) ∧
  (∀ s t : State, step s = .next t → (∀ c rest, s.input ≠ ⟨true, c⟩ :: rest) →
    (s.mode = .unconfigured → ∀ src rest, s.input ≠ ⟨false, some (.s 0b00#2 (.list src))⟩ :: rest) →
    t.mode = s.mode)

/-- R32: the two level outputs in each mode. -/
def Obligations.StatusOutputsFollowTheMode : Prop :=
  ∀ s : State, (s.cfgOk = true ↔ s.mode.bits = 0b01#2) ∧ (s.cfgErr = true ↔ s.mode.bits = 0b10#2) ∧
    (s.mode = .unconfigured → s.cfgOk = false ∧ s.cfgErr = false)

/-! Encodings -/

/-- R92: a command word decodes to a row's command exactly when it selects that row by match and mask, and no word
selects two rows; a word that selects none is refused by the decoder. -/
def Obligations.DecoderFollowsTheOpcodeMap : Prop :=
  (∀ (x : BitVec 14) (i : Instr), decode (.c x : RawCommand) = .ok i →
    (opcodeRows.filter (·.selects .C x.toNat)).map (·.mnemonic) = [i.mnemonic]) ∧
  (∀ (x : BitVec 14), opcodeRows.filter (·.selects .C x.toNat) = [] ↔ ∃ why, decode (.c x : RawCommand) = .error why) ∧
  (∀ (sop : BitVec 2) (p : Payload) (i : Instr), decode (.s sop p) = .ok i →
    (opcodeRows.filter (·.selects .S sop.toNat)).map (·.mnemonic) = [i.mnemonic]) ∧
  (∀ (src : List WORD) (w : WORD), decode (.s 0b00#2 (.list src)) = .ok (.tblLoad src) ∧
    decode (.s 0b01#2 (.one w)) = .ok (.tblLookup w) ∧ decode (.s 0b10#2 (.one w)) = .ok (.decWord w))

/-- R93: of the 16384 command words, 4355 are commands and 12029 are reserved. -/
def Obligations.CountOfCommandWords : Prop :=
  ((List.range 16384).filter fun x => (decodeTableWord 16 x).isSome).length = 4355 ∧
  ((List.range 16384).filter fun x => (decodeTableWord 16 x).isNone).length = 12029

/-- R104: every reserved encoding is refused in every mode (a refusal carries no state, so nothing changes and no beat
is made), and every other format `C` word decodes. -/
def Obligations.ReservedEncodingsAreRefused : Prop :=
  (∀ (s : State) (x : BitVec 14) (rest : List HostEvent), s.input = ⟨false, some (.c x)⟩ :: rest →
    0x3000 ≤ x.toNat ∨ (0x0100 ≤ x.toNat ∧ x.toNat ≤ 0x07FF) ∨ (0x0801 ≤ x.toNat ∧ x.toNat ≤ 0x0FFF) ∨
      (0x1801 ≤ x.toNat ∧ x.toNat ≤ 0x1FFF) ∨ (0x2001 ≤ x.toNat ∧ x.toNat ≤ 0x27FF) →
    ∃ why, step s = .refused (.reservedEncoding why)) ∧
  (∀ (s : State) (p : Payload) (rest : List HostEvent), s.input = ⟨false, some (.s 0b11#2 p)⟩ :: rest →
    step s = .refused (.reservedEncoding .header)) ∧
  (∀ x : BitVec 14, (.c x : RawCommand).wellFormed = true ↔ ∃ i, decode (.c x : RawCommand) = .ok i)

/-- Decoding and encoding agree in both directions: a command word has one meaning and a command has one word, for
every operand, and every command is well-formed (R93: "Encoding is the inverse"; R105). -/
def Obligations.DecodeAndEncodeAreInverse : Prop :=
  ∀ (i : Instr) (c : RawCommand), i.wellFormed = true ∧ (decode c = .ok i ↔ encode i = c)

/-- Words written out bit by bit from the patterns of R92. -/
def Obligations.WrittenOutCommandWordsDecode : Prop :=
  decode (.c 0b00000011011110#14 : RawCommand) = .ok (.encPush 0xDE#8) ∧
  decode (.c 0b00100000000000#14 : RawCommand) = .ok .encEnd ∧
  decode (.c 0b01011011110101#14 : RawCommand) = .ok (.decPush 1781#11) ∧
  decode (.c 0b01100000000000#14 : RawCommand) = .ok .decMiss ∧
  decode (.c 0b10000000000000#14 : RawCommand) = .ok .decEnd ∧
  decode (.c 0b10101101101111#14 : RawCommand) = .ok (.tblRd 879#11) ∧
  decode (.s 0b10#2 (.one (WORD.ofString "riegel"))) = .ok (.decWord (.ofString "riegel"))

/-- R88, R89, R90: the beats as numbers of 12, 9 and 12 bits. -/
def Obligations.OutputBeatsAsBits : Prop :=
  (∀ i : Index, (EncBeat.W i).bits.toNat = i.toNat) ∧ EncBeat.EOM.bits = 0x800#12 ∧
  (∀ b : Byte, (DecBeat.B b).bits.toNat = b.toNat) ∧ DecBeat.EOM.bits = 0x100#9 ∧
  (∀ i : Index, (LkpBeat.mk true i).bits.toNat = 2048 + i.toNat) ∧
  (∀ (s t : State) (w : WORD), exec (.tblLookup w) s = .next t → (∀ i, tblRead s.rom i ≠ w) →
    ∃ b, t.lkpOut = s.lkpOut ++ [b] ∧ b.bits = 0x7FF#12)

/-! Acceptance -/

/-- R196: which command is accepted in which mode: an accepted one completes, any other is refused. -/
def Obligations.AcceptanceTable : Prop :=
  (∀ (i : Instr) (s : State), accepts i s.mode = true → ∃ t, exec i s = .next t) ∧
  (∀ (i : Instr) (s : State), accepts i s.mode = false → exec i s = .refused (.wrongMode s.mode)) ∧
  (∀ (s : State) (c : Option RawCommand) (rest : List HostEvent), s.input = ⟨true, c⟩ :: rest →
    ∃ t, step s = .next t) ∧
  (∀ (s : State) (c : RawCommand) (why : Reserved) (rest : List HostEvent),
    s.input = ⟨false, some c⟩ :: rest → decode c = .error why → step s = .refused (.reservedEncoding why))

/-! The encoder -/

/-- R142, in numbers: the byte enters at the low end and no bit is lost; below 11 bits nothing comes out, from 11 bits
on the quotient is the word and the remainder stays. -/
def Obligations.EncPushAppendsAByteAndEmitsAWordAtElevenBits : Prop :=
  (∀ b : Byte, decode (.c (0b000000#6 ++ b) : RawCommand) = .ok (.encPush b)) ∧
  (∀ (b : Byte) (s : State), s.mode ≠ .ready → exec (.encPush b) s = .refused (.wrongMode s.mode)) ∧
  ∀ (b : Byte) (s : State), s.mode = .ready → s.enc.Inv →
    let c := s.enc.cnt.toNat
    let a := s.enc.acc.toNat * 256 + b.toNat
    a < 2 ^ 18 ∧
    (c ≤ 2 → exec (.encPush b) s =
      .next { s with enc := ⟨BitVec.ofNat 18 a, BitVec.ofNat 5 (c + 8), true⟩ }) ∧
    (3 ≤ c → a / 2 ^ (c - 3) < 2048 ∧ exec (.encPush b) s =
      .next { s with
        enc := ⟨BitVec.ofNat 18 (a % 2 ^ (c - 3)), BitVec.ofNat 5 (c - 3), true⟩
        encOut := s.encOut ++ [.W (BitVec.ofNat 11 (a / 2 ^ (c - 3)))] })

/-- R143, in numbers: the three end cases, and the unit back in its initial state. -/
def Obligations.EncEndEmitsTheTerminatorAndClearsTheUnit : Prop :=
  decode (.c 0x0800#14 : RawCommand) = .ok .encEnd ∧
  (∀ s : State, s.mode ≠ .ready → exec .encEnd s = .refused (.wrongMode s.mode)) ∧
  ∀ s : State, s.mode = .ready → s.enc.Inv →
    let r := s.enc.cnt.toNat
    let w := s.enc.acc.toNat * 2 ^ (11 - r) + 2 ^ (10 - r)
    (0 < r → w < 2048 ∧ exec .encEnd s =
      .next { s with enc := ⟨0#18, 0#5, false⟩, encOut := s.encOut ++ [.W (BitVec.ofNat 11 w), .EOM] }) ∧
    (r = 0 → s.enc.any = true → exec .encEnd s =
      .next { s with enc := ⟨0#18, 0#5, false⟩, encOut := s.encOut ++ [.W 1024#11, .EOM] }) ∧
    (r = 0 → s.enc.any = false → exec .encEnd s =
      .next { s with enc := ⟨0#18, 0#5, false⟩, encOut := s.encOut ++ [.EOM] })

/-- R35: what an encoder command leaves unchanged, from every state. -/
def Obligations.EncoderCommandsFrame : Prop :=
  ∀ (i : Instr) (s t : State), isEncCommand i = true → exec i s = .next t →
    t.mode = s.mode ∧ (∀ k, tblRead t.rom k = tblRead s.rom k) ∧ t.dec = s.dec ∧ t.decOut = s.decOut ∧
    t.lkpOut = s.lkpOut ∧ t.tblOut = s.tblOut ∧ t.input = s.input ∧ t.freeCtr = s.freeCtr ∧
    (∃ bs, t.encOut = s.encOut ++ bs) ∧ t.cfgOk = s.cfgOk ∧ t.cfgErr = s.cfgErr

/-- R86, R87: the machine's terminator word is `T(r, v)`, and every non-zero index is `T(r, v)` for exactly one pair,
whose `r` is 10 less the position of the least significant `1` bit. -/
def Obligations.TerminatorWordsAreTheNonZeroIndices : Prop :=
  (∀ r v : Nat, r ≤ 10 → v < 2 ^ r →
    (terminator (BitVec.ofNat 18 v) (BitVec.ofNat 5 r)).toNat = T r v ∧ T r v < 2048 ∧ T r v ≠ 0) ∧
  (T 0 0 = 1024) ∧
  ∀ g : Nat, 0 < g → g < 2048 → ∃ r v, (r ≤ 10 ∧ v < 2 ^ r ∧ g = T r v) ∧
    (∀ r' v', r' ≤ 10 → v' < 2 ^ r' → g = T r' v' → r' = r ∧ v' = v) ∧
    g.testBit (10 - r) = true ∧ ∀ k, k < 10 - r → g.testBit k = false

/-- R34 (ghost relations) and R147: after `n` pushes of a message the registers and the words sent are functions of
the bytes pushed alone. -/
def Obligations.EncoderAfterEveryPush : Prop :=
  ∀ (d : List Byte) (s : State) (rest : List HostEvent), s.mode = .ready → s.enc = .init →
    s.input = d.map (fun b => Trace.command (.encPush b)) ++ rest →
    ∃ t : State, Host.Core.run Sys2Proof.core d.length s = .next t ∧
      t = { s with enc := t.enc, encOut := t.encOut, input := rest } ∧
      t.enc.cnt.toNat = 8 * d.length % 11 ∧ (t.enc.any = true ↔ d ≠ []) ∧
      t.enc.acc.toNat = valueOf ((bitsOfBytes d).drop (11 * (8 * d.length / 11))) ∧
      t.encOut = s.encOut ++
        (List.range (8 * d.length / 11)).map fun k => .W (BitVec.ofNat 11 (group 11 (bitsOfBytes d) k))

/-- R144: the commands of one encoder message, run from a unit in its initial state, put `encode_idx` of the bytes on
`ENC_OUT`, then one `EOM`, and change nothing else. -/
def Obligations.EncoderMessageEqualsEncodeIdx : Prop :=
  ∀ (d : List Byte) (s : State) (rest : List HostEvent), s.mode = .ready → s.enc = .init →
    s.input = Trace.encMsg d ++ rest →
    Host.Core.run Sys2Proof.core (d.length + 1) s =
      .next { s with input := rest, encOut := s.encOut ++ ((encodeIdx d).map .W ++ [.EOM]) }

/-- R146: length, last word, exact boundary, injectivity, and that words already sent never change. -/
def Obligations.EncodedMessageProperties : Prop :=
  (∀ d : List Byte, (encodeIdx d).length = if d.length = 0 then 0 else 8 * d.length / 11 + 1) ∧
  (∀ d : List Byte, d ≠ [] → ∃ i : Index, (encodeIdx d).getLast? = some i ∧ i ≠ 0#11) ∧
  (∀ d : List Byte, d ≠ [] → 8 * d.length % 11 = 0 → (encodeIdx d).getLast? = some 1024#11) ∧
  (∀ d e : List Byte, encodeIdx d = encodeIdx e → d = e) ∧
  (∀ d e : List Byte, (encodeIdx d).take (8 * d.length / 11) <+: encodeIdx (d ++ e))

/-! The decoder -/

/-- R162, in numbers: the index enters at the low end and no bit is lost; one byte comes out of the top when 0 to 4
bits were buffered and two when 5 to 7 were; the newest byte is held and the byte held before is released. -/
def Obligations.DecPushAppendsAnIndexAndExtractsBytes : Prop :=
  (∀ i : Index, decode (.c (0b010#3 ++ i) : RawCommand) = .ok (.decPush i)) ∧
  (∀ (i : Index) (s : State), s.mode ≠ .ready → exec (.decPush i) s = .refused (.wrongMode s.mode)) ∧
  ∀ (i : Index) (s : State), s.mode = .ready → s.dec.Inv →
    let c := s.dec.cnt.toNat
    let a := s.dec.acc.toNat * 2048 + i.toNat
    let held := if s.dec.hv then [DecBeat.B s.dec.hold] else []
    a < 2 ^ 18 ∧ a / 2 ^ (c + 3) < 256 ∧
    (c ≤ 4 → exec (.decPush i) s =
      .next { s with
        dec := ⟨BitVec.ofNat 18 (a % 2 ^ (c + 3)), BitVec.ofNat 5 (c + 3), BitVec.ofNat 8 (a / 2 ^ (c + 3)), true⟩
        decOut := s.decOut ++ held }) ∧
    (5 ≤ c → exec (.decPush i) s =
      .next { s with
        dec := ⟨BitVec.ofNat 18 (a % 2 ^ (c - 5)), BitVec.ofNat 5 (c - 5),
          BitVec.ofNat 8 (a / 2 ^ (c - 5) % 256), true⟩
        decOut := s.decOut ++ (held ++ [.B (BitVec.ofNat 8 (a / 2 ^ (c + 3)))]) })

/-- R163: `DEC.MISS` is `DEC.PUSH` of eleven `1` bits, in every state. -/
def Obligations.DecMissPushesElevenOnes : Prop :=
  decode (.c 0x1800#14 : RawCommand) = .ok .decMiss ∧
  (∀ s : State, s.mode ≠ .ready → exec .decMiss s = .refused (.wrongMode s.mode)) ∧
  (∀ s : State, exec .decMiss s = exec (.decPush 0b11111111111#11) s) ∧
  (∀ s : State, s.mode = .ready → ∃ t, exec .decMiss s = .next t ∧ t.mode = .ready ∧ t.cfgErr = false)

/-- R164: `DEC.WORD w` pushes the index of `w`, or the miss index when no entry equals it; and it is the lookup
followed by that push, but for the lookup's own beat. -/
def Obligations.DecWordLooksUpAndPushes : Prop :=
  (∀ w : WORD, decode (.s 0b10#2 (.one w)) = .ok (.decWord w)) ∧
  (∀ (w : WORD) (s : State), s.mode ≠ .ready → exec (.decWord w) s = .refused (.wrongMode s.mode)) ∧
  (∀ (w : WORD) (s : State), s.mode = .ready → ∃ t, exec (.decWord w) s = .next t) ∧
  (∀ (w : WORD) (s : State) (i : Index), s.mode = .ready → s.RomWf → tblRead s.rom i = w →
    exec (.decWord w) s = exec (.decPush i) s) ∧
  (∀ (w : WORD) (s : State), (∀ i, tblRead s.rom i ≠ w) → exec (.decWord w) s = exec .decMiss s) ∧
  (∀ (w : WORD) (s t : State), exec (.tblLookup w) s = .next t → ∃ b u v,
    t.lkpOut = s.lkpOut ++ [b] ∧ exec (if b.hit then .decPush b.idx else .decMiss) t = .next u ∧
    exec (.decWord w) s = .next v ∧ v = { u with lkpOut := s.lkpOut })

/-- R165: `DEC.END` strips or releases the held byte, ends the message and clears the unit; `DEC.HOLD` becomes
unspecified, so nothing is said of it. -/
def Obligations.DecEndStripsOrReleasesTheHeldByte : Prop :=
  decode (.c 0x2000#14 : RawCommand) = .ok .decEnd ∧
  (∀ s : State, s.mode ≠ .ready → exec .decEnd s = .refused (.wrongMode s.mode)) ∧
  ∀ s : State, s.mode = .ready → ∃ (h : Byte) (n : Nat), exec .decEnd s =
    .next { s with
      dec := ⟨0#18, 0#5, h, false⟩
      freeCtr := n
      decOut := s.decOut ++
        (if s.dec.hv = false then [.EOM]
         else if s.dec.acc.toNat = 0 ∧ s.dec.hold.toNat = 128 then [.EOM]
         else [.B s.dec.hold, .EOM]) }

/-- R35: what a decoder command leaves unchanged, from every state (the counter of the free values is the model's
own and is not named). -/
def Obligations.DecoderCommandsFrame : Prop :=
  ∀ (i : Instr) (s t : State), isDecCommand i = true → exec i s = .next t →
    t.mode = s.mode ∧ (∀ k, tblRead t.rom k = tblRead s.rom k) ∧ t.enc = s.enc ∧ t.encOut = s.encOut ∧
    t.lkpOut = s.lkpOut ∧ t.tblOut = s.tblOut ∧ t.input = s.input ∧
    (∃ bs, t.decOut = s.decOut ++ bs) ∧ t.cfgOk = s.cfgOk ∧ t.cfgErr = s.cfgErr

/-- R37, R34 (ghost relations) and R224: after `w` pushes of a message the ghost sequence `E` is the list of bytes
the source's loop has produced, the tail is what `DEC.ACC` holds, and all but the newest byte are out. The message
before may have ended with `DEC.END` or with `RESET`: the premises `mark` and `sent` are the ghost part of the invariant
(`EveryStepKeepsTheInvariant`). -/
def Obligations.DecoderAfterEveryPush : Prop :=
  ∀ (x : List Index) (s : State) (rest : List HostEvent), s.mode = .ready → s.dec.Initial →
    s.decOutAtReset ≤ s.decOut.length → sentBytes s = [] →
    s.input = x.map (fun i => Trace.command (.decPush i)) ++ rest →
    ∃ t : State, Host.Core.run Sys2Proof.core x.length s = .next t ∧
      t = { s with dec := t.dec, decOut := t.decOut, input := rest } ∧
      emitted t = rawBytes x ∧ t.dec.cnt.toNat = 11 * x.length % 8 ∧ t.dec.acc.toNat = tailValue x ∧
      (t.dec.hv = true ↔ x ≠ []) ∧ (x ≠ [] → (emitted t).getLast? = some t.dec.hold) ∧
      (x ≠ [] → (sentBytes t).length + 1 = 11 * x.length / 8)

/-- R37 at a `RESET`: whatever message it abandons, the bytes of that message stay on `DEC_OUT` but are no part of `E`
any more, and the pushes of the first message after the next load make `E` the bytes of that message alone. No premise
on the state before the `RESET`. -/
def Obligations.EmittedSequenceStartsAfreshAtReset : Prop :=
  (∀ (s : State) (c : Option RawCommand) (rest : List HostEvent), s.input = ⟨true, c⟩ :: rest →
    ∃ t : State, step s = .next t ∧ emitted t = [] ∧ t.decOut = s.decOut) ∧
  (∀ (x : List Index) (rom : Table) (s : State) (rest : List HostEvent), ValidList rom.toList →
    s.input = [Trace.reset, Trace.command (.tblLoad rom.toList)] ++
      x.map (fun i => Trace.command (.decPush i)) ++ rest →
    ∃ t : State, Host.Core.run Sys2Proof.core (x.length + 2) s = .next t ∧ emitted t = rawBytes x ∧
      t.input = rest ∧ ∃ bs, t.decOut = s.decOut ++ bs)

/-- R37: a push makes `E` longer at its end only, and the newest byte is the held one; `DEC.END` drops `last(E)` (the
strip) or releases it, and what is then out of the message is `E`, less its last byte when it was dropped; after it `E`
is empty. -/
def Obligations.DecEndDropsOrReleasesTheLastByteOfE : Prop :=
  (∀ (i : Index) (s : State), s.mode = .ready → s.dec.Inv → s.decOutAtReset ≤ s.decOut.length →
    ∃ (t : State) (ys : List Byte), exec (.decPush i) s = .next t ∧ ys ≠ [] ∧ emitted t = emitted s ++ ys ∧
      ys.getLast? = some t.dec.hold) ∧
  (∀ s : State, s.mode = .ready → ∃ (t : State) (ys : List Byte), exec .decEnd s = .next t ∧
    t.decOut = s.decOut ++ (ys.map .B ++ [.EOM]) ∧ emitted t = [] ∧
    sentBytes s ++ ys =
      if s.dec.hv = true ∧ s.dec.acc.toNat = 0 ∧ s.dec.hold.toNat = 128 then (emitted s).dropLast else emitted s)

/-- R166 at index level, misses included (`none` stands for `dec.miss`): the commands of one decoder message, run
from a unit in its initial state, put `decode_idx` on `DEC_OUT`, then one `EOM`. -/
def Obligations.DecoderMessageEqualsDecodeIdx : Prop :=
  ∀ (x : List (Option Index)) (s : State) (rest : List HostEvent), s.mode = .ready → s.dec.Initial →
    s.input = Trace.decIdx x ++ rest →
    ∃ (h : Byte) (n : Nat), Host.Core.run Sys2Proof.core (x.length + 1) s =
      .next { s with
        input := rest, dec := ⟨0#18, 0#5, h, false⟩, freeCtr := n
        decOut := s.decOut ++ ((decodeIdx (x.map fun o => o.getD 2047#11)).map .B ++ [.EOM]) }

/-- R166 at word level: with `DEC.WORD` the beats are `decode` of the words. -/
def Obligations.DecoderMessageEqualsDecode : Prop :=
  ∀ (ws : List WORD) (s : State) (rest : List HostEvent), s.mode = .ready → s.dec.Initial →
    s.input = Trace.decMsg ws ++ rest →
    ∃ (h : Byte) (n : Nat), Host.Core.run Sys2Proof.core (ws.length + 1) s =
      .next { s with
        input := rest, dec := ⟨0#18, 0#5, h, false⟩, freeCtr := n
        decOut := s.decOut ++ ((decodeWords s.rom ws).map .B ++ [.EOM]) }

/-- R169: on encoder output the bytes extracted are the message, with one more `0x80` exactly when `r ≤ 3`, and the
tail's value is zero exactly then. -/
def Obligations.StripCasesOnEncoderOutput : Prop :=
  ∀ d : List Byte, d ≠ [] →
    let r := 8 * d.length % 11
    rawBytes (encodeIdx d) = (if r ≤ 3 then d ++ [0x80#8] else d) ∧
    tailValue (encodeIdx d) = (if r ≤ 3 then 0 else 2 ^ (10 - r))

/-- R168: decoding an encoded message gives it back, at index level and at word level for every word type (U6) and valid table; the
converse does not hold. -/
def Obligations.DecodingAnEncodedMessageGivesItBack : Prop :=
  (∀ d : List Byte, decodeIdx (encodeIdx d) = d) ∧
  (∀ (W : Type) [DecidableEq W] [Inhabited W] (t : Table W) (d : List Byte), ValidList t.toList →
    decodeWords t (encodeWords t d) = d) ∧
  (∃ x : List Index, encodeIdx (decodeIdx x) ≠ x)

/-- R64: the decoder's output has `floor(11w/8)` bytes or one less, and an index sequence of any kind decodes (R171);
decoding is not injective. -/
def Obligations.DecodedLengthAndNotInjective : Prop :=
  (∀ x : List Index, (decodeIdx x).length = 11 * x.length / 8 ∨
    (x ≠ [] ∧ (decodeIdx x).length + 1 = 11 * x.length / 8)) ∧
  decodeIdx [4#11] = decodeIdx [0#11] ∧ decodeIdx [0#11] = decodeIdx [5#11] ∧ decodeIdx [1024#11] = []

/-- R194: a word that is not in the table is no fault: `DEC.WORD` and `DEC.MISS` complete, the mode and the status
outputs stay, and only byte beats go out, no marker. -/
def Obligations.UnknownWordIsNotAFault : Prop :=
  ∀ s : State, s.mode = .ready → ∀ i : Instr,
    (i = .decMiss ∨ ∃ w, i = .decWord w ∧ ∀ k, tblRead s.rom k ≠ w) →
    ∃ (t : State) (ys : List Byte), exec i s = .next t ∧ t.mode = .ready ∧ t.cfgErr = false ∧
      t.decOut = s.decOut ++ ys.map .B ∧ t.lkpOut = s.lkpOut ∧ exec i s = exec (.decPush 2047#11) s

/-! The table -/

/-- R121, R122: `TBL.LOAD` in `UNCONFIGURED` stores a valid list in order and makes the block `READY`, halts on any
other, and is refused in the other modes whatever the list (R197 (c)). -/
def Obligations.TblLoadStoresAValidListOrHalts : Prop :=
  (∀ src : List WORD, decode (.s 0b00#2 (.list src)) = .ok (.tblLoad src)) ∧
  (∀ (src : List WORD) (s : State), s.mode ≠ .unconfigured →
    exec (.tblLoad src) s = .refused (.wrongMode s.mode)) ∧
  (∀ (src : List WORD) (s : State), s.mode = .unconfigured → ValidList src → ∃ rom : Table,
    exec (.tblLoad src) s = .next { s with mode := .ready, rom := rom } ∧
    ∀ k : Index, src[k.toNat]? = some (tblRead rom k)) ∧
  (∀ (src : List WORD) (s : State), s.mode = .unconfigured → ¬ ValidList src → ∃ (rom : Table) (n : Nat),
    exec (.tblLoad src) s = .next { s with mode := .halted, rom := rom, freeCtr := n })

/-- R192: the fault entry: an invalid load halts the block, visibly, and from then on every command is refused; the
units keep their registers, which are the reset values in every state that meets the invariant. -/
def Obligations.ConfigurationErrorHaltsForGood : Prop :=
  ∀ (src : List WORD) (s : State), s.mode = .unconfigured → ¬ ValidList src →
    ∃ t : State, exec (.tblLoad src) s = .next t ∧ t.mode = .halted ∧ t.cfgErr = true ∧ t.cfgOk = false ∧
      t.enc = s.enc ∧ t.dec = s.dec ∧ t.encOut = s.encOut ∧ t.decOut = s.decOut ∧ t.lkpOut = s.lkpOut ∧
      t.tblOut = s.tblOut ∧ t.input = s.input ∧ (s.Inv → t.enc = .init ∧ t.dec.Initial) ∧
      ∀ i : Instr, exec i t = .refused (.wrongMode .halted)

/-- R123: `TBL.RD i` hands out the word at index `i` and changes no state of the block. -/
def Obligations.TblRdReturnsTheWordAtTheIndex : Prop :=
  (∀ i : Index, decode (.c (0b101#3 ++ i) : RawCommand) = .ok (.tblRd i)) ∧
  (∀ (i : Index) (s : State), s.mode ≠ .ready → exec (.tblRd i) s = .refused (.wrongMode s.mode)) ∧
  ∀ (i : Index) (s : State), s.mode = .ready → ∃ w, s.rom.toList[i.toNat]? = some w ∧
    exec (.tblRd i) s = .next { s with tblOut := s.tblOut ++ [w] }

/-- R124, R128: `TBL.LOOKUP w` answers a hit with the index whose entry equals `w` exactly, or a miss with the index
field all ones; in particular `EMPTY` misses. -/
def Obligations.TblLookupReportsHitOrMiss : Prop :=
  (∀ w : WORD, decode (.s 0b01#2 (.one w)) = .ok (.tblLookup w)) ∧
  (∀ (w : WORD) (s : State), s.mode ≠ .ready → exec (.tblLookup w) s = .refused (.wrongMode s.mode)) ∧
  ∀ (w : WORD) (s : State), s.mode = .ready → s.RomWf →
    (∀ i : Index, tblRead s.rom i = w →
      exec (.tblLookup w) s = .next { s with lkpOut := s.lkpOut ++ [⟨true, i⟩] }) ∧
    ((∀ i : Index, tblRead s.rom i ≠ w) →
      exec (.tblLookup w) s = .next { s with lkpOut := s.lkpOut ++ [⟨false, 0b11111111111#11⟩] }) ∧
    (w = EMPTY → ∀ i : Index, tblRead s.rom i ≠ w)

/-- R125: the laws L1, L2 and L3 of the two lookups, for every word type (U6) and every valid table. -/
def Obligations.LookupLaws : Prop :=
  ∀ (W : Type) [DecidableEq W] [Inhabited W] (t : Table W), ValidList t.toList →
    (∀ i : Index, tblFind t (tblRead t i) = some i) ∧
    (∀ (w : W) (i : Index), tblFind t w = some i → tblRead t i = w) ∧
    (∀ w : W, tblFind t w = none ↔ ∀ i, tblRead t i ≠ w)

/-- R120, R59: the table commands touch no register of a unit, and the two lookups change no state of the block. -/
def Obligations.TableCommandsFrame : Prop :=
  (∀ (i : Instr) (s t : State), isEncCommand i = false → isDecCommand i = false → exec i s = .next t →
    t.enc = s.enc ∧ t.dec = s.dec ∧ t.encOut = s.encOut ∧ t.decOut = s.decOut ∧ t.input = s.input) ∧
  (∀ (k : Index) (s t : State), exec (.tblRd k) s = .next t →
    t.mode = s.mode ∧ (∀ j, tblRead t.rom j = tblRead s.rom j) ∧ t.lkpOut = s.lkpOut ∧ t.freeCtr = s.freeCtr ∧
    exec (.tblRd k) t = .next { t with tblOut := t.tblOut ++ [tblRead s.rom k] }) ∧
  (∀ (w : WORD) (s t : State), exec (.tblLookup w) s = .next t →
    t.mode = s.mode ∧ (∀ j, tblRead t.rom j = tblRead s.rom j) ∧ t.tblOut = s.tblOut ∧ t.freeCtr = s.freeCtr ∧
    ∃ b, t.lkpOut = s.lkpOut ++ [b] ∧ exec (.tblLookup w) t = .next { t with lkpOut := t.lkpOut ++ [b] }) ∧
  (∀ (src : List WORD) (s t : State), exec (.tblLoad src) s = .next t → t.lkpOut = s.lkpOut ∧ t.tblOut = s.tblOut)

/-- R62, R31: in `READY` no step but the `RESET` event writes the table. -/
def Obligations.TableIsImmutableWhileReady : Prop :=
  ∀ s t : State, s.mode = .ready → step s = .next t →
    (∃ c rest, s.input = ⟨true, c⟩ :: rest) ∨ (t.mode = .ready ∧ t.rom = s.rom)

/-- R126 and the source's five vectors: with a word list that has the eight pinned entries, the vectors' words come
out, and decode to the bytes again. -/
def Obligations.SourceVectors : Prop :=
  ∀ t : Table, sourceWordList t.toList →
    encodeWords t [0x00#8] = [.ofString "abend"] ∧
    encodeWords t [0x01#8] = [.ofString "ablehnen"] ∧
    encodeWords t [0xFF#8] = [.ofString "zwilling"] ∧
    encodeWords t [0xFF#8, 0xFF#8] = [.ofString "zyklus", .ofString "ziffer"] ∧
    encodeWords t [0xDE#8, 0xAD#8, 0xBE#8, 0xEF#8] =
      [.ofString "toilette", .ofString "hygiene", .ofString "riegel"] ∧
    decodeWords t [.ofString "toilette", .ofString "hygiene", .ofString "riegel"] =
      [0xDE#8, 0xAD#8, 0xBE#8, 0xEF#8] ∧
    ∀ w : WORD, (∀ i, tblRead t i ≠ w) → decodeWords t [.ofString "abend", w] = [0x00#8, 0x9F#8]

/-! Whole-machine rules -/

/-- R35, R60 (d): an encoder command and a decoder command commute. -/
def Obligations.EncoderAndDecoderCommandsCommute : Prop :=
  ∀ (i j : Instr) (s t u : State), isEncCommand i = true → isDecCommand j = true →
    (exec i s = .next t → exec j t = .next u → ∃ v, exec j s = .next v ∧ exec i v = .next u) ∧
    (exec j s = .next t → exec i t = .next u → ∃ v, exec i s = .next v ∧ exec j v = .next u)

/-- R35: what an encoder command does depends on the encoder's registers and the mode alone. -/
def Obligations.EncoderReadsOnlyItsOwnRegisters : Prop :=
  ∀ (i : Instr) (s s' t : State), isEncCommand i = true → s.mode = s'.mode → s.enc = s'.enc →
    exec i s = .next t →
    ∃ (t' : State) (bs : List EncBeat), exec i s' = .next t' ∧ t'.enc = t.enc ∧
      t.encOut = s.encOut ++ bs ∧ t'.encOut = s'.encOut ++ bs

/-- R35: what a decoder command does depends on the decoder's registers and the mode alone, and for `DEC.WORD` on
the table. -/
def Obligations.DecoderReadsOnlyItsOwnRegisters : Prop :=
  ∀ (i : Instr) (s s' t : State), isDecCommand i = true → s.mode = s'.mode → s.dec = s'.dec →
    (∀ w, i = .decWord w → s.rom = s'.rom) → exec i s = .next t →
    ∃ (t' : State) (bs : List DecBeat), exec i s' = .next t' ∧ t'.dec.acc = t.dec.acc ∧
      t'.dec.cnt = t.dec.cnt ∧ t'.dec.hv = t.dec.hv ∧ (t.dec.hv = true → t'.dec.hold = t.dec.hold) ∧
      t.decOut = s.decOut ++ bs ∧ t'.decOut = s'.decOut ++ bs

/-- R28, R31, U1, U2: an unspecified value never shows. Two states that differ only in `DEC.HOLD` while `DEC.HV = 0`,
in a table that cannot be read and in the free values, step alike for ever: same outputs, same modes, same refusals. -/
def Obligations.UnspecifiedValuesNeverShow : Prop :=
  ∀ s s' : State, s.Agrees s' →
    (∀ t, step s = .next t → ∃ t', step s' = .next t' ∧ t.Agrees t') ∧
    (∀ r, step s = .refused r → step s' = .refused r)

/-- R30, R33: what is not state of the block influences no rule: with other streams and another input in their place, a
command makes the same beats and the same registers. -/
def Obligations.EventHistoryInfluencesNothing : Prop :=
  ∀ (i : Instr) (s t : State), exec i s = .next t →
    ∃ (e : List EncBeat) (d : List DecBeat) (l : List LkpBeat) (w : List WORD),
      t.encOut = s.encOut ++ e ∧ t.decOut = s.decOut ++ d ∧ t.lkpOut = s.lkpOut ++ l ∧
      t.tblOut = s.tblOut ++ w ∧ t.input = s.input ∧
      ∀ a b m c x q,
        exec i { s with encOut := a, decOut := b, decOutAtReset := m, lkpOut := c, tblOut := x, input := q } =
          .next { t with
            encOut := a ++ e, decOut := b ++ d, decOutAtReset := m, lkpOut := c ++ l, tblOut := x ++ w, input := q }

/-- R231, R58, R60 (b), R224: every beat that has gone out stays, and one step makes a bounded number of new ones. -/
def Obligations.StreamsOnlyGrowAndByFewBeats : Prop :=
  ∀ s t : State, s.Inv → step s = .next t →
    ∃ (e : List EncBeat) (d : List DecBeat) (l : List LkpBeat) (w : List WORD),
      t.encOut = s.encOut ++ e ∧ t.decOut = s.decOut ++ d ∧ t.lkpOut = s.lkpOut ++ l ∧
      t.tblOut = s.tblOut ++ w ∧ e.length ≤ 2 ∧ d.length ≤ 2 ∧ l.length ≤ 1 ∧ w.length ≤ 1

/-- R5, D11, U6: the word type and `EMPTY` are arguments of the machine (`execOf`, `stepOf`), and `exec` and `step` are
that machine at the type the model picked for them (log entry 1). A step reads nothing of a word but whether two are
equal and whether one is `EMPTY`: a map of one word type into any other that keeps both carries every step over,
outputs, input and refusals renamed. -/
def Obligations.WordsAreOpaque : Prop :=
  (∀ (i : Instr) (s : State), exec i s = execOf i s) ∧ (∀ s : State, step s = stepOf s) ∧
  ∀ (W V : Type) [DecidableEq W] [Inhabited W] [DecidableEq V] [Inhabited V] (f : W → V),
    Function.Injective f → f EMPTY = EMPTY → ∀ s : State W,
    (∀ t, stepOf s = .next t → ∃ t', stepOf (renameState f s) = .next t' ∧ (renameState f t).Agrees t') ∧
    (∀ r, stepOf s = .refused r → stepOf (renameState f s) = .refused r)

/-- R5, U6: at every word type the machine accepts the same commands as R196 says, answers a lookup by equality of
words alone (R128), and loads a list exactly when it is valid (R122). -/
def Obligations.EveryWordTypeRunsTheSameCommands : Prop :=
  ∀ (W : Type) [DecidableEq W] [Inhabited W] (s : State W),
    (∀ i : Instr W, i.mnemonic ≠ .TBL_LOAD →
      (s.mode = .ready → ∃ t, execOf i s = .next t) ∧
      (s.mode ≠ .ready → execOf i s = .refused (.wrongMode s.mode))) ∧
    (∀ src : List W, s.mode = .unconfigured →
      (ValidList src → ∃ rom : Table W, rom.toList = src ∧
        execOf (.tblLoad src) s = .next { s with mode := .ready, rom := rom }) ∧
      (¬ ValidList src → ∃ t, execOf (.tblLoad src) s = .next t ∧ t.mode = .halted)) ∧
    (∀ w : W, s.mode = .ready → s.RomWf →
      (∀ i : Index, tblRead s.rom i = w →
        execOf (.tblLookup w) s = .next { s with lkpOut := s.lkpOut ++ [⟨true, i⟩] } ∧
        execOf (.decWord w) s = execOf (.decPush i) s) ∧
      ((∀ i : Index, tblRead s.rom i ≠ w) →
        execOf (.tblLookup w) s = .next { s with lkpOut := s.lkpOut ++ [⟨false, 2047#11⟩] } ∧
        execOf (.decWord w) s = execOf .decMiss s))

/-- R229, R227: ending both messages gives a final state from any state in `READY`, and in a final state that meets
the invariant both units are in their initial state. -/
def Obligations.EndingBothMessagesIsFinal : Prop :=
  (∀ s : State, s.mode = .ready → ∃ t u, exec .encEnd s = .next t ∧ exec .decEnd t = .next u ∧ u.Final ∧
    u.enc = .init ∧ u.dec.Initial) ∧
  (∀ s : State, s.Inv → s.Final → s.enc = .init ∧ s.dec.Initial)

/-- The whole block, from any state whatever (a halted one too): `RESET`, load a valid word list, encode a message,
read its words from the table, decode the words. `ENC_OUT` carries the indices, `TBL_OUT` the words, `DEC_OUT` the
original bytes, and the run ends in a final state (R222, R223, R168, R229). -/
def Obligations.StartUpEncodeReadDecodeRoundTrip : Prop :=
  ∀ (rom : Table) (d : List Byte) (s : State), ValidList rom.toList →
    s.input = [Trace.reset, Trace.command (.tblLoad rom.toList)] ++ Trace.encMsg d ++
      (encodeIdx d).map (fun k => Trace.command (.tblRd k)) ++ Trace.decMsg (encodeWords rom d) →
    ∃ t : State, Host.Core.run Sys2Proof.core s.input.length s = .next t ∧ t.Final ∧ t.rom = rom ∧
      t.input = [] ∧ t.encOut = s.encOut ++ ((encodeIdx d).map .W ++ [.EOM]) ∧
      t.tblOut = s.tblOut ++ encodeWords rom d ∧ t.decOut = s.decOut ++ (d.map .B ++ [.EOM])
end

