-- ==== Sys2Proof/Laws/Bits.lean ====
section
/-! SUPPORT. What the accumulator operations compute, as numbers: appending a unit multiplies and adds, the top bits
are a quotient, the kept bits a remainder, and the terminator word is `T(r, v)` (R26, R86, R145, R167). -/

namespace Sys2Proof.Machine

theorem ones_toNat {k : Nat} (hk : k ≤ 18) : (ones k).toNat = 2 ^ k - 1 := by
  interval_cases k <;> rfl

theorem keepLow_toNat (acc : Acc) {rest : Cnt} (h : rest.toNat ≤ 18) :
    (keepLow acc rest).toNat = acc.toNat % 2 ^ rest.toNat := by
  rw [keepLow, BitVec.toNat_and, ones_toNat h, Nat.and_two_pow_sub_one_eq_mod]

theorem topIndex_toNat (acc : Acc) (rest : Cnt) :
    (topIndex acc rest).toNat = acc.toNat / 2 ^ rest.toNat % 2048 := by
  simp [topIndex, Nat.shiftRight_eq_div_pow]

theorem topByte_toNat (acc : Acc) (rest : Cnt) :
    (topByte acc rest).toNat = acc.toNat / 2 ^ rest.toNat % 256 := by
  simp [topByte, Nat.shiftRight_eq_div_pow]

/-- R145: no one bit is shifted out when at most 10 bits are buffered. -/
theorem appendByte_toNat {acc : Acc} (b : Byte) (h : acc.toNat < 2 ^ 10) :
    (appendByte acc b).toNat = acc.toNat * 256 + b.toNat := by
  have hb : b.toNat < 2 ^ 8 := b.isLt
  have hs : acc.toNat <<< 8 < 2 ^ 18 := by rw [Nat.shiftLeft_eq]; omega
  simp only [appendByte, BitVec.toNat_or, BitVec.toNat_shiftLeft, BitVec.truncate_eq_setWidth,
    BitVec.toNat_setWidth, Nat.mod_eq_of_lt hs, Nat.mod_eq_of_lt (show b.toNat < 2 ^ 18 by omega)]
  rw [← Nat.shiftLeft_add_eq_or_of_lt hb, Nat.shiftLeft_eq]

/-- R167: no one bit is shifted out when at most 7 bits are buffered. -/
theorem appendIndex_toNat {acc : Acc} (i : Index) (h : acc.toNat < 2 ^ 7) :
    (appendIndex acc i).toNat = acc.toNat * 2048 + i.toNat := by
  have hi : i.toNat < 2 ^ 11 := i.isLt
  have hs : acc.toNat <<< 11 < 2 ^ 18 := by rw [Nat.shiftLeft_eq]; omega
  simp only [appendIndex, BitVec.toNat_or, BitVec.toNat_shiftLeft, BitVec.truncate_eq_setWidth,
    BitVec.toNat_setWidth, Nat.mod_eq_of_lt hs, Nat.mod_eq_of_lt (show i.toNat < 2 ^ 18 by omega)]
  rw [← Nat.shiftLeft_add_eq_or_of_lt hi, Nat.shiftLeft_eq]

/-- R143: "the shift by `11 - r` stays inside 11 bits; the `[10:0]` slice drops nothing". -/
theorem terminator_toNat {acc : Acc} {r : Cnt} (hr : r.toNat ≤ 10) (h : acc.toNat < 2 ^ r.toNat) :
    (terminator acc r).toNat = acc.toNat * 2 ^ (11 - r.toNat) + 2 ^ (10 - r.toNat) := by
  obtain ⟨k, hk⟩ : ∃ k, r.toNat = k := ⟨_, rfl⟩
  rw [hk] at h hr
  have hp : (1#18 <<< (10 - k)).toNat = 2 ^ (10 - k) := by interval_cases k <;> rfl
  have hs : acc.toNat <<< (11 - k) < 2 ^ 11 := by
    rw [Nat.shiftLeft_eq, show 2 ^ 11 = 2 ^ k * 2 ^ (11 - k) by rw [← pow_add]; congr 1; omega]
    exact Nat.mul_lt_mul_of_pos_right h (by positivity)
  have hlt : 2 ^ (10 - k) < 2 ^ (11 - k) := Nat.pow_lt_pow_right (by norm_num) (by omega)
  have hor : acc.toNat <<< (11 - k) ||| 2 ^ (10 - k) < 2 ^ 11 :=
    Nat.or_lt_two_pow hs (Nat.pow_lt_pow_right (by norm_num) (by omega))
  simp only [terminator, hk, BitVec.extractLsb'_toNat, BitVec.toNat_or, BitVec.toNat_shiftLeft, hp,
    Nat.shiftRight_zero, Nat.mod_eq_of_lt (show acc.toNat <<< (11 - k) < 2 ^ 18 by omega)]
  rw [Nat.mod_eq_of_lt hor, ← Nat.shiftLeft_add_eq_or_of_lt hlt, Nat.shiftLeft_eq]

/-- Every index is the `BitVec` of its own number, so `tblFind` and `tblRead` name the same entry. -/
theorem index_ofNat_toNat {k : Nat} (h : k < 2048) : (BitVec.ofNat 11 k).toNat = k :=
  BitVec.toNat_ofNat k 11 ▸ Nat.mod_eq_of_lt h

end Sys2Proof.Machine
end

