-- ==== Sys2Proof/Laws/Decode.lean ====
section
/-! SUPPORT. The fields of a format `C` word put together and taken apart (R81, R82). -/

namespace Sys2Proof

@[simp] theorem opcOf_append (opc : BitVec 3) (opd : BitVec 11) : opcOf (opc ++ opd) = opc := by
  unfold opcOf; exact BitVec.extractLsb'_append_eq_left

@[simp] theorem opdOf_append (opc : BitVec 3) (opd : BitVec 11) : opdOf (opc ++ opd) = opd := by
  unfold opdOf; exact BitVec.extractLsb'_append_eq_right

/-- A format `C` word is its opcode followed by its operand (R81). -/
theorem opc_append_opd (x : BitVec 14) : opcOf x ++ opdOf x = x := by
  apply BitVec.eq_of_toNat_eq
  have := x.isLt
  simp only [opcOf, opdOf, BitVec.toNat_append, BitVec.extractLsb'_toNat, Nat.shiftRight_eq_div_pow]
  rw [← Nat.shiftLeft_add_eq_or_of_lt (Nat.mod_lt _ (by norm_num)), Nat.shiftLeft_eq]
  omega

end Sys2Proof
end

