-- ==== Sys2Proof/Laws/PerInstr.lean ====
section
/-! SUPPORT. Facts about every command as syntax, one lemma per constructor of `Instr`: its encoding is none of the
reserved ones of R104. -/

namespace Sys2Proof.Laws.EncodesWellFormed

/-- The command's encoding is well-formed (R92 against R104). -/
abbrev Statement (i : Instr) : Prop := (encode i).wellFormed = true

theorem encPush (b : Byte) : Statement (.encPush b) := by
  have h : b.toNat < 256 := b.isLt
  have hx : (0b000#3 ++ 0b000#3 ++ b : BitVec 14).toNat = b.toNat := by
    rw [BitVec.toNat_append, ← Nat.shiftLeft_add_eq_or_of_lt h]; simp
  simp only [Statement, encode, RawCommand.wellFormed, opcodeOk, operandOk, hx]
  simp; omega

theorem encEnd : Statement .encEnd := by decide

theorem decPush (i : Index) : Statement (.decPush i) := by
  have h : i.toNat < 2048 := i.isLt
  have hx : (0b010#3 ++ i : BitVec 14).toNat = 4096 + i.toNat := by
    rw [BitVec.toNat_append, ← Nat.shiftLeft_add_eq_or_of_lt h]; rfl
  simp only [Statement, encode, RawCommand.wellFormed, opcodeOk, operandOk, hx]
  simp; omega

theorem decMiss : Statement .decMiss := by decide

theorem decEnd : Statement .decEnd := by decide

theorem tblRd (i : Index) : Statement (.tblRd i) := by
  have h : i.toNat < 2048 := i.isLt
  have hx : (0b101#3 ++ i : BitVec 14).toNat = 10240 + i.toNat := by
    rw [BitVec.toNat_append, ← Nat.shiftLeft_add_eq_or_of_lt h]; rfl
  simp only [Statement, encode, RawCommand.wellFormed, opcodeOk, operandOk, hx]
  simp; omega

theorem tblLoad (src : List WORD) : Statement (.tblLoad src) := by
  simp [Statement, encode, RawCommand.wellFormed, headerOk, payloadOk]

theorem tblLookup (w : WORD) : Statement (.tblLookup w) := by
  simp [Statement, encode, RawCommand.wellFormed, headerOk, payloadOk]

theorem decWord (w : WORD) : Statement (.decWord w) := by
  simp [Statement, encode, RawCommand.wellFormed, headerOk, payloadOk]

end Sys2Proof.Laws.EncodesWellFormed
end

