-- ==== Sys2Proof/Laws/State.lean ====
section
/-! SUPPORT. The fields of the state after each update: one lemma per field per update, true by `rfl`. -/

namespace Sys2Proof.Machine

variable {W : Type} (s : State W)

/-! `setEnc` -/

@[simp] theorem State.setEnc_mode (e : EncUnit) : (s.setEnc e).mode = s.mode := rfl
@[simp] theorem State.setEnc_rom (e : EncUnit) : (s.setEnc e).rom = s.rom := rfl
@[simp] theorem State.setEnc_enc (e : EncUnit) : (s.setEnc e).enc = e := rfl
@[simp] theorem State.setEnc_dec (e : EncUnit) : (s.setEnc e).dec = s.dec := rfl
@[simp] theorem State.setEnc_encOut (e : EncUnit) : (s.setEnc e).encOut = s.encOut := rfl
@[simp] theorem State.setEnc_decOut (e : EncUnit) : (s.setEnc e).decOut = s.decOut := rfl
@[simp] theorem State.setEnc_lkpOut (e : EncUnit) : (s.setEnc e).lkpOut = s.lkpOut := rfl
@[simp] theorem State.setEnc_tblOut (e : EncUnit) : (s.setEnc e).tblOut = s.tblOut := rfl
@[simp] theorem State.setEnc_input (e : EncUnit) : (s.setEnc e).input = s.input := rfl
@[simp] theorem State.setEnc_freeCtr (e : EncUnit) : (s.setEnc e).freeCtr = s.freeCtr := rfl
@[simp] theorem State.setEnc_decOutAtReset (e : EncUnit) : (s.setEnc e).decOutAtReset = s.decOutAtReset := rfl

/-! `setDec` -/

@[simp] theorem State.setDec_mode (d : DecUnit) : (s.setDec d).mode = s.mode := rfl
@[simp] theorem State.setDec_rom (d : DecUnit) : (s.setDec d).rom = s.rom := rfl
@[simp] theorem State.setDec_enc (d : DecUnit) : (s.setDec d).enc = s.enc := rfl
@[simp] theorem State.setDec_dec (d : DecUnit) : (s.setDec d).dec = d := rfl
@[simp] theorem State.setDec_encOut (d : DecUnit) : (s.setDec d).encOut = s.encOut := rfl
@[simp] theorem State.setDec_decOut (d : DecUnit) : (s.setDec d).decOut = s.decOut := rfl
@[simp] theorem State.setDec_lkpOut (d : DecUnit) : (s.setDec d).lkpOut = s.lkpOut := rfl
@[simp] theorem State.setDec_tblOut (d : DecUnit) : (s.setDec d).tblOut = s.tblOut := rfl
@[simp] theorem State.setDec_input (d : DecUnit) : (s.setDec d).input = s.input := rfl
@[simp] theorem State.setDec_freeCtr (d : DecUnit) : (s.setDec d).freeCtr = s.freeCtr := rfl
@[simp] theorem State.setDec_decOutAtReset (d : DecUnit) : (s.setDec d).decOutAtReset = s.decOutAtReset := rfl

/-! `emitEnc` -/

@[simp] theorem State.emitEnc_mode (bs : List EncBeat) : (s.emitEnc bs).mode = s.mode := rfl
@[simp] theorem State.emitEnc_rom (bs : List EncBeat) : (s.emitEnc bs).rom = s.rom := rfl
@[simp] theorem State.emitEnc_enc (bs : List EncBeat) : (s.emitEnc bs).enc = s.enc := rfl
@[simp] theorem State.emitEnc_dec (bs : List EncBeat) : (s.emitEnc bs).dec = s.dec := rfl
@[simp] theorem State.emitEnc_encOut (bs : List EncBeat) : (s.emitEnc bs).encOut = s.encOut ++ bs := rfl
@[simp] theorem State.emitEnc_decOut (bs : List EncBeat) : (s.emitEnc bs).decOut = s.decOut := rfl
@[simp] theorem State.emitEnc_lkpOut (bs : List EncBeat) : (s.emitEnc bs).lkpOut = s.lkpOut := rfl
@[simp] theorem State.emitEnc_tblOut (bs : List EncBeat) : (s.emitEnc bs).tblOut = s.tblOut := rfl
@[simp] theorem State.emitEnc_input (bs : List EncBeat) : (s.emitEnc bs).input = s.input := rfl
@[simp] theorem State.emitEnc_freeCtr (bs : List EncBeat) : (s.emitEnc bs).freeCtr = s.freeCtr := rfl
@[simp] theorem State.emitEnc_decOutAtReset (bs : List EncBeat) : (s.emitEnc bs).decOutAtReset = s.decOutAtReset := rfl

/-! `emitDec` -/

@[simp] theorem State.emitDec_mode (bs : List DecBeat) : (s.emitDec bs).mode = s.mode := rfl
@[simp] theorem State.emitDec_rom (bs : List DecBeat) : (s.emitDec bs).rom = s.rom := rfl
@[simp] theorem State.emitDec_enc (bs : List DecBeat) : (s.emitDec bs).enc = s.enc := rfl
@[simp] theorem State.emitDec_dec (bs : List DecBeat) : (s.emitDec bs).dec = s.dec := rfl
@[simp] theorem State.emitDec_encOut (bs : List DecBeat) : (s.emitDec bs).encOut = s.encOut := rfl
@[simp] theorem State.emitDec_decOut (bs : List DecBeat) : (s.emitDec bs).decOut = s.decOut ++ bs := rfl
@[simp] theorem State.emitDec_lkpOut (bs : List DecBeat) : (s.emitDec bs).lkpOut = s.lkpOut := rfl
@[simp] theorem State.emitDec_tblOut (bs : List DecBeat) : (s.emitDec bs).tblOut = s.tblOut := rfl
@[simp] theorem State.emitDec_input (bs : List DecBeat) : (s.emitDec bs).input = s.input := rfl
@[simp] theorem State.emitDec_freeCtr (bs : List DecBeat) : (s.emitDec bs).freeCtr = s.freeCtr := rfl
@[simp] theorem State.emitDec_decOutAtReset (bs : List DecBeat) : (s.emitDec bs).decOutAtReset = s.decOutAtReset := rfl

/-! `emitLkp` -/

@[simp] theorem State.emitLkp_mode (b : LkpBeat) : (s.emitLkp b).mode = s.mode := rfl
@[simp] theorem State.emitLkp_rom (b : LkpBeat) : (s.emitLkp b).rom = s.rom := rfl
@[simp] theorem State.emitLkp_enc (b : LkpBeat) : (s.emitLkp b).enc = s.enc := rfl
@[simp] theorem State.emitLkp_dec (b : LkpBeat) : (s.emitLkp b).dec = s.dec := rfl
@[simp] theorem State.emitLkp_encOut (b : LkpBeat) : (s.emitLkp b).encOut = s.encOut := rfl
@[simp] theorem State.emitLkp_decOut (b : LkpBeat) : (s.emitLkp b).decOut = s.decOut := rfl
@[simp] theorem State.emitLkp_lkpOut (b : LkpBeat) : (s.emitLkp b).lkpOut = s.lkpOut ++ [b] := rfl
@[simp] theorem State.emitLkp_tblOut (b : LkpBeat) : (s.emitLkp b).tblOut = s.tblOut := rfl
@[simp] theorem State.emitLkp_input (b : LkpBeat) : (s.emitLkp b).input = s.input := rfl
@[simp] theorem State.emitLkp_freeCtr (b : LkpBeat) : (s.emitLkp b).freeCtr = s.freeCtr := rfl
@[simp] theorem State.emitLkp_decOutAtReset (b : LkpBeat) : (s.emitLkp b).decOutAtReset = s.decOutAtReset := rfl

/-! `emitTbl` -/

@[simp] theorem State.emitTbl_mode (w : W) : (s.emitTbl w).mode = s.mode := rfl
@[simp] theorem State.emitTbl_rom (w : W) : (s.emitTbl w).rom = s.rom := rfl
@[simp] theorem State.emitTbl_enc (w : W) : (s.emitTbl w).enc = s.enc := rfl
@[simp] theorem State.emitTbl_dec (w : W) : (s.emitTbl w).dec = s.dec := rfl
@[simp] theorem State.emitTbl_encOut (w : W) : (s.emitTbl w).encOut = s.encOut := rfl
@[simp] theorem State.emitTbl_decOut (w : W) : (s.emitTbl w).decOut = s.decOut := rfl
@[simp] theorem State.emitTbl_lkpOut (w : W) : (s.emitTbl w).lkpOut = s.lkpOut := rfl
@[simp] theorem State.emitTbl_tblOut (w : W) : (s.emitTbl w).tblOut = s.tblOut ++ [w] := rfl
@[simp] theorem State.emitTbl_input (w : W) : (s.emitTbl w).input = s.input := rfl
@[simp] theorem State.emitTbl_freeCtr (w : W) : (s.emitTbl w).freeCtr = s.freeCtr := rfl
@[simp] theorem State.emitTbl_decOutAtReset (w : W) : (s.emitTbl w).decOutAtReset = s.decOutAtReset := rfl

/-! `drawn` -/

@[simp] theorem State.drawn_mode : (s.drawn).mode = s.mode := rfl
@[simp] theorem State.drawn_rom : (s.drawn).rom = s.rom := rfl
@[simp] theorem State.drawn_enc : (s.drawn).enc = s.enc := rfl
@[simp] theorem State.drawn_dec : (s.drawn).dec = s.dec := rfl
@[simp] theorem State.drawn_encOut : (s.drawn).encOut = s.encOut := rfl
@[simp] theorem State.drawn_decOut : (s.drawn).decOut = s.decOut := rfl
@[simp] theorem State.drawn_lkpOut : (s.drawn).lkpOut = s.lkpOut := rfl
@[simp] theorem State.drawn_tblOut : (s.drawn).tblOut = s.tblOut := rfl
@[simp] theorem State.drawn_input : (s.drawn).input = s.input := rfl
@[simp] theorem State.drawn_freeCtr : (s.drawn).freeCtr = s.freeCtr + 1 := rfl
@[simp] theorem State.drawn_decOutAtReset : (s.drawn).decOutAtReset = s.decOutAtReset := rfl

/-! `withFetchWord` -/

@[simp] theorem State.withFetchWord_mode (s : State) (nbits w : Nat) : (s.withFetchWord nbits w).mode = s.mode := rfl
@[simp] theorem State.withFetchWord_rom (s : State) (nbits w : Nat) : (s.withFetchWord nbits w).rom = s.rom := rfl
@[simp] theorem State.withFetchWord_enc (s : State) (nbits w : Nat) : (s.withFetchWord nbits w).enc = s.enc := rfl
@[simp] theorem State.withFetchWord_dec (s : State) (nbits w : Nat) : (s.withFetchWord nbits w).dec = s.dec := rfl
@[simp] theorem State.withFetchWord_encOut (s : State) (nbits w : Nat) : (s.withFetchWord nbits w).encOut = s.encOut := rfl
@[simp] theorem State.withFetchWord_decOut (s : State) (nbits w : Nat) : (s.withFetchWord nbits w).decOut = s.decOut := rfl
@[simp] theorem State.withFetchWord_lkpOut (s : State) (nbits w : Nat) : (s.withFetchWord nbits w).lkpOut = s.lkpOut := rfl
@[simp] theorem State.withFetchWord_tblOut (s : State) (nbits w : Nat) : (s.withFetchWord nbits w).tblOut = s.tblOut := rfl
@[simp] theorem State.withFetchWord_input (s : State) (nbits w : Nat) : (s.withFetchWord nbits w).input = tableEvent nbits w :: s.input := rfl
@[simp] theorem State.withFetchWord_freeCtr (s : State) (nbits w : Nat) : (s.withFetchWord nbits w).freeCtr = s.freeCtr := rfl
@[simp] theorem State.withFetchWord_decOutAtReset (s : State) (nbits w : Nat) : (s.withFetchWord nbits w).decOutAtReset = s.decOutAtReset := rfl

/-! `haltConfigurationError` (R192) and `resetBlock` (R220) -/

@[simp] theorem haltConfigurationError_mode [Inhabited W] : (haltConfigurationError s).mode = .halted := rfl
@[simp] theorem haltConfigurationError_rom [Inhabited W] : (haltConfigurationError s).rom = freeTable s.freeCtr := rfl
@[simp] theorem haltConfigurationError_enc [Inhabited W] : (haltConfigurationError s).enc = s.enc := rfl
@[simp] theorem haltConfigurationError_dec [Inhabited W] : (haltConfigurationError s).dec = s.dec := rfl
@[simp] theorem haltConfigurationError_encOut [Inhabited W] : (haltConfigurationError s).encOut = s.encOut := rfl
@[simp] theorem haltConfigurationError_decOut [Inhabited W] : (haltConfigurationError s).decOut = s.decOut := rfl
@[simp] theorem haltConfigurationError_lkpOut [Inhabited W] : (haltConfigurationError s).lkpOut = s.lkpOut := rfl
@[simp] theorem haltConfigurationError_tblOut [Inhabited W] : (haltConfigurationError s).tblOut = s.tblOut := rfl
@[simp] theorem haltConfigurationError_input [Inhabited W] : (haltConfigurationError s).input = s.input := rfl
@[simp] theorem haltConfigurationError_freeCtr [Inhabited W] : (haltConfigurationError s).freeCtr = s.freeCtr + 1 := rfl
@[simp] theorem haltConfigurationError_decOutAtReset [Inhabited W] : (haltConfigurationError s).decOutAtReset = s.decOutAtReset := rfl

@[simp] theorem resetBlock_mode [Inhabited W] : (resetBlock s).mode = .unconfigured := rfl
@[simp] theorem resetBlock_rom [Inhabited W] : (resetBlock s).rom = freeTable s.freeCtr := rfl
@[simp] theorem resetBlock_enc [Inhabited W] : (resetBlock s).enc = .init := rfl
@[simp] theorem resetBlock_dec [Inhabited W] : (resetBlock s).dec = .init (Config.freeHold s.freeCtr) := rfl
@[simp] theorem resetBlock_encOut [Inhabited W] : (resetBlock s).encOut = s.encOut := rfl
@[simp] theorem resetBlock_decOut [Inhabited W] : (resetBlock s).decOut = s.decOut := rfl
@[simp] theorem resetBlock_lkpOut [Inhabited W] : (resetBlock s).lkpOut = s.lkpOut := rfl
@[simp] theorem resetBlock_tblOut [Inhabited W] : (resetBlock s).tblOut = s.tblOut := rfl
@[simp] theorem resetBlock_input [Inhabited W] : (resetBlock s).input = s.input := rfl
@[simp] theorem resetBlock_freeCtr [Inhabited W] : (resetBlock s).freeCtr = s.freeCtr + 1 := rfl
@[simp] theorem resetBlock_decOutAtReset [Inhabited W] : (resetBlock s).decOutAtReset = s.decOut.length := rfl

/-! The initial units (R38) -/

@[simp] theorem EncUnit.init_acc : EncUnit.init.acc = 0#18 := rfl
@[simp] theorem EncUnit.init_cnt : EncUnit.init.cnt = 0#5 := rfl
@[simp] theorem EncUnit.init_any : EncUnit.init.any = false := rfl
@[simp] theorem DecUnit.init_acc (h : Byte) : (DecUnit.init h).acc = 0#18 := rfl
@[simp] theorem DecUnit.init_cnt (h : Byte) : (DecUnit.init h).cnt = 0#5 := rfl
@[simp] theorem DecUnit.init_hold (h : Byte) : (DecUnit.init h).hold = h := rfl
@[simp] theorem DecUnit.init_hv (h : Byte) : (DecUnit.init h).hv = false := rfl

end Sys2Proof.Machine
end

