-- ==== Sys2Proof/Laws/Step.lean ====
section
/-! SUPPORT. What one step can do, said once: the mode check, each command's next state, and the cases of `step`, and that the
fixed names are the machine of Machine/AnyWord.lean. -/

namespace Sys2Proof.Machine

variable {W : Type}

/-- Everything `requireMode` can answer (R196). -/
theorem requireMode_next {m : Mode} {s t : State W} {act : State W → State W} :
    requireMode m s act = .next t ↔ s.mode = m ∧ t = act s := by
  unfold requireMode
  split
  · rename_i h; simp [h, eq_comm]
  · rename_i h; simp [h]

theorem requireMode_accepted {m : Mode} {s : State W} (act : State W → State W) (h : s.mode = m) :
    requireMode m s act = .next (act s) := by simp [requireMode, h]

theorem requireMode_refused {m : Mode} {s : State W} (act : State W → State W) (h : s.mode ≠ m) :
    requireMode m s act = .refused (.wrongMode s.mode) := by simp [requireMode, h]

theorem execEncPush_next {b : Byte} {s t : State W} : execEncPush b s = .next t ↔
    s.mode = .ready ∧ t = (s.setEnc (encPushUnit b s.enc).1).emitEnc (encPushUnit b s.enc).2 :=
  requireMode_next

theorem execEncEnd_next {s t : State W} : execEncEnd s = .next t ↔
    s.mode = .ready ∧ t = (s.setEnc .init).emitEnc (encEndBeats s.enc) :=
  requireMode_next

theorem execDecPush_next {i : Index} {s t : State W} : execDecPush i s = .next t ↔
    s.mode = .ready ∧ t = decPushBody i s :=
  requireMode_next

theorem execDecMiss_next {s t : State W} : execDecMiss s = .next t ↔
    s.mode = .ready ∧ t = decPushBody MISS_IDX s :=
  requireMode_next

/-- `DEC.WORD` performs the body of `DEC.PUSH` with `sub(w)` (R161, R164). -/
theorem execDecWord_next [DecidableEq W] {w : W} {s t : State W} : execDecWord w s = .next t ↔
    s.mode = .ready ∧ t = decPushBody (tblSub s.rom w) s := by
  unfold execDecWord tblSub
  rw [requireMode_next]
  cases tblFind s.rom w <;> rfl

theorem execDecEnd_next {s t : State W} : execDecEnd s = .next t ↔
    s.mode = .ready ∧
      t = ((s.setDec (.init (Config.freeHold s.freeCtr))).emitDec (decEndBeats s.dec)).drawn :=
  requireMode_next

theorem execTblRd_next {i : Index} {s t : State W} : execTblRd i s = .next t ↔
    s.mode = .ready ∧ t = s.emitTbl (tblRead s.rom i) :=
  requireMode_next

/-- A hit beat with the index found, or a miss beat with `MISS_IDX` (R124). -/
theorem execTblLookup_next [DecidableEq W] {w : W} {s t : State W} : execTblLookup w s = .next t ↔
    s.mode = .ready ∧ t = s.emitLkp ⟨(tblFind s.rom w).isSome, tblSub s.rom w⟩ := by
  unfold execTblLookup tblSub
  rw [requireMode_next]
  cases tblFind s.rom w <;> rfl

/-! The arms of `exec`, one by one. -/

@[simp] theorem exec_encPush (b : Byte) (s : State) : exec (.encPush b) s = execEncPush b s := rfl
@[simp] theorem exec_encEnd (s : State) : exec .encEnd s = execEncEnd s := rfl
@[simp] theorem exec_decPush (i : Index) (s : State) : exec (.decPush i) s = execDecPush i s := rfl
@[simp] theorem exec_decMiss (s : State) : exec .decMiss s = execDecMiss s := rfl
@[simp] theorem exec_decEnd (s : State) : exec .decEnd s = execDecEnd s := rfl
@[simp] theorem exec_tblRd (i : Index) (s : State) : exec (.tblRd i) s = execTblRd i s := rfl
@[simp] theorem exec_tblLoad (src : List WORD) (s : State) : exec (.tblLoad src) s = execTblLoad src s := rfl
@[simp] theorem exec_tblLookup (w : WORD) (s : State) : exec (.tblLookup w) s = execTblLookup w s := rfl
@[simp] theorem exec_decWord (w : WORD) (s : State) : exec (.decWord w) s = execDecWord w s := rfl

/-! The host's fixed names are the machine of Machine/AnyWord.lean at the word type `WORD`. -/

section
variable [DecidableEq W] [Inhabited W] (s : State W)

@[simp] theorem execOf_encPush (b : Byte) : execOf (.encPush b) s = execEncPush b s := rfl
@[simp] theorem execOf_encEnd : execOf .encEnd s = execEncEnd s := rfl
@[simp] theorem execOf_decPush (i : Index) : execOf (.decPush i) s = execDecPush i s := rfl
@[simp] theorem execOf_decMiss : execOf .decMiss s = execDecMiss s := rfl
@[simp] theorem execOf_decEnd : execOf .decEnd s = execDecEnd s := rfl
@[simp] theorem execOf_tblRd (i : Index) : execOf (.tblRd i) s = execTblRd i s := rfl
@[simp] theorem execOf_tblLoad (src : List W) : execOf (.tblLoad src) s = execTblLoad src s := rfl
@[simp] theorem execOf_tblLookup (w : W) : execOf (.tblLookup w) s = execTblLookup w s := rfl
@[simp] theorem execOf_decWord (w : W) : execOf (.decWord w) s = execDecWord w s := rfl

end

theorem exec_eq_execOf (i : Instr) (s : State) : exec i s = execOf i s := by cases i <;> rfl

theorem step_eq_stepOf (s : State) : step s = stepOf s :=
  congrArg (stepWith · s) (funext fun i => funext fun s => exec_eq_execOf i s)

/-! Each command outside the one mode that accepts it (R196). -/

theorem execEncPush_refused (b : Byte) {s : State W} (h : s.mode ≠ .ready) :
    execEncPush b s = .refused (.wrongMode s.mode) :=
  requireMode_refused _ h

theorem execEncEnd_refused {s : State W} (h : s.mode ≠ .ready) :
    execEncEnd s = .refused (.wrongMode s.mode) :=
  requireMode_refused _ h

theorem execDecPush_refused (i : Index) {s : State W} (h : s.mode ≠ .ready) :
    execDecPush i s = .refused (.wrongMode s.mode) :=
  requireMode_refused _ h

theorem execDecMiss_refused {s : State W} (h : s.mode ≠ .ready) :
    execDecMiss s = .refused (.wrongMode s.mode) :=
  requireMode_refused _ h

theorem execDecEnd_refused {s : State W} (h : s.mode ≠ .ready) :
    execDecEnd s = .refused (.wrongMode s.mode) :=
  requireMode_refused _ h

theorem execTblRd_refused (i : Index) {s : State W} (h : s.mode ≠ .ready) :
    execTblRd i s = .refused (.wrongMode s.mode) :=
  requireMode_refused _ h

theorem execTblLoad_refused [DecidableEq W] [Inhabited W] (src : List W) {s : State W} (h : s.mode ≠ .unconfigured) :
    execTblLoad src s = .refused (.wrongMode s.mode) :=
  requireMode_refused _ h

theorem execTblLookup_refused [DecidableEq W] (w : W) {s : State W} (h : s.mode ≠ .ready) :
    execTblLookup w s = .refused (.wrongMode s.mode) :=
  requireMode_refused _ h

theorem execDecWord_refused [DecidableEq W] (w : W) {s : State W} (h : s.mode ≠ .ready) :
    execDecWord w s = .refused (.wrongMode s.mode) :=
  requireMode_refused _ h

/-- Everything `fetch` can answer (R6, R7, R197 (a)). -/
theorem fetch_cases (s : State W) :
    (s.input = [] ∧ fetch s = (.idle, s)) ∨
    ∃ ev rest, s.input = ev :: rest ∧
      ((ev.reset = true ∧ fetch s = (.reset, { s with input := rest })) ∨
       (ev.reset = false ∧ ev.command = none ∧ fetch s = (.idle, { s with input := rest })) ∨
       (∃ c, ev.reset = false ∧ ev.command = some c ∧ fetch s = (.command c, { s with input := rest }))) := by
  rcases hi : s.input with _ | ⟨⟨r, c⟩, rest⟩
  · exact .inl ⟨rfl, by simp [fetch, hi]⟩
  · refine .inr ⟨_, rest, rfl, ?_⟩
    cases r <;> cases c <;> simp [fetch, hi]

/-! What a step does with the event at the head of the input, whatever runs a decoded command. -/

section
variable [Inhabited W] {run : Instr W → State W → Host.Outcome (State W) Fault Refusal} {s : State W}
  {rest : List (HostEvent W)}

theorem stepWith_nil (h : s.input = []) : stepWith run s = .next s := by simp [stepWith, fetch, h]

theorem stepWith_idle (h : s.input = ⟨false, none⟩ :: rest) :
    stepWith run s = .next { s with input := rest } := by simp [stepWith, fetch, h]

/-- R220, R197 (a): whatever command stands beside the `RESET`. -/
theorem stepWith_reset {c : Option (RawCommand W)} (h : s.input = ⟨true, c⟩ :: rest) :
    stepWith run s = .next (resetBlock { s with input := rest }) := by simp [stepWith, fetch, h]

theorem stepWith_command {c : RawCommand W} {i : Instr W} (h : s.input = ⟨false, some c⟩ :: rest)
    (hd : decode c = .ok i) : stepWith run s = run i { s with input := rest } := by
  simp [stepWith, fetch, h, hd]

/-- R104. -/
theorem stepWith_reserved {c : RawCommand W} {why : Reserved} (h : s.input = ⟨false, some c⟩ :: rest)
    (hd : decode c = .error why) : stepWith run s = .refused (.reservedEncoding why) := by
  simp [stepWith, fetch, h, hd]

end

/-- Everything a step that goes on can do, whatever runs a decoded command: nothing was presented, or `RESET` was, or a
command that decodes ran. -/
theorem stepWith_next [Inhabited W] {run : Instr W → State W → Host.Outcome (State W) Fault Refusal} {s t : State W}
    (h : stepWith run s = .next t) :
    (s.input = [] ∧ t = s) ∨
    ∃ ev rest, s.input = ev :: rest ∧
      ((ev.reset = true ∧ t = resetBlock { s with input := rest }) ∨
       (ev.reset = false ∧ ev.command = none ∧ t = { s with input := rest }) ∨
       (∃ c i, ev.reset = false ∧ ev.command = some c ∧ decode c = .ok i ∧
          run i { s with input := rest } = .next t)) := by
  unfold stepWith at h
  obtain ⟨hi, hf⟩ | ⟨ev, rest, hi, ⟨hr, hf⟩ | ⟨hr, hc, hf⟩ | ⟨c, hr, hc, hf⟩⟩ := fetch_cases s <;>
    simp only [hf] at h
  · cases h; exact .inl ⟨hi, rfl⟩
  · cases h; exact .inr ⟨ev, rest, hi, .inl ⟨hr, rfl⟩⟩
  · cases h; exact .inr ⟨ev, rest, hi, .inr (.inl ⟨hr, hc, rfl⟩)⟩
  · cases hd : decode c with
    | ok i => rw [hd] at h; exact .inr ⟨ev, rest, hi, .inr (.inr ⟨c, i, hr, hc, hd, h⟩)⟩
    | error why => rw [hd] at h; cases h

/-- `stepWith_next` for `step`. -/
theorem step_next {s t : State} (h : step s = .next t) :
    (s.input = [] ∧ t = s) ∨
    ∃ ev rest, s.input = ev :: rest ∧
      ((ev.reset = true ∧ t = resetBlock { s with input := rest }) ∨
       (ev.reset = false ∧ ev.command = none ∧ t = { s with input := rest }) ∨
       (∃ c i, ev.reset = false ∧ ev.command = some c ∧ decode c = .ok i ∧
          exec i { s with input := rest } = .next t)) :=
  stepWith_next h

end Sys2Proof.Machine
end

