-- ==== Sys2Proof/Laws/Table.lean ====
section
/-! SUPPORT. The word-list table: what validity means (R122), what a load stores (R121), what the lookup finds (R128),
and that every operation on the table keeps it valid in `READY` (I7 of R34). -/

namespace Sys2Proof.Machine

variable {W : Type} [DecidableEq W]

/-- R122 as three conditions. -/
theorem validWordList_iff [Inhabited W] (src : List W) :
    validWordList src = true ↔ src.length = 2048 ∧ (∀ w ∈ src, w ≠ EMPTY) ∧ src.Nodup := by
  simp only [validWordList, Bool.and_eq_true, decide_eq_true_eq, List.all_eq_true, and_assoc]

/-- A load stores exactly the valid lists, and the table then lists exactly `src` (R121). -/
theorem tableOf_eq_some [Inhabited W] (src : List W) (t : Table W) :
    tableOf src = some t ↔ validWordList src = true ∧ t.toList = src := by
  unfold tableOf
  split
  · rename_i h
    constructor
    · rintro ⟨⟩; exact ⟨h, rfl⟩
    · rintro ⟨-, rfl⟩; rfl
  · rename_i h
    simp [h]

theorem tableOf_eq_none [Inhabited W] (src : List W) : tableOf src = none ↔ validWordList src = false := by
  unfold tableOf; split <;> simp_all

omit [DecidableEq W] in
@[simp] theorem Table.length_toList (t : Table W) : t.toList.length = 2048 := by simp

omit [DecidableEq W] in
/-- `TblRead` is the entry of the list (R12). -/
theorem tblRead_eq_getElem (t : Table W) (i : Index) :
    tblRead t i = t.toList[i.toNat]'(by have := i.isLt; simp; omega) := by
  simp [tblRead]

/-- `TblFind` finds an entry equal to the word and none before it (R128). -/
theorem tblFind_eq_some (t : Table W) (w : W) (i : Index) :
    tblFind t w = some i ↔ tblRead t i = w ∧ ∀ j : Index, j.toNat < i.toNat → tblRead t j ≠ w := by
  simp only [tblFind, Option.map_eq_some_iff, List.findIdx?_eq_some_iff_getElem, decide_eq_true_eq]
  constructor
  · rintro ⟨k, ⟨hk, hw, hlt⟩, rfl⟩
    have hk' : k < 2048 := by simpa using hk
    refine ⟨?_, fun j hj => ?_⟩
    · rw [tblRead_eq_getElem]; simpa [index_ofNat_toNat hk'] using hw
    · rw [index_ofNat_toNat hk'] at hj
      rw [tblRead_eq_getElem]; exact hlt j.toNat hj
  · rintro ⟨hw, hlt⟩
    have hi := i.isLt
    refine ⟨i.toNat, ⟨by simp; omega, ?_, fun j hj => ?_⟩, by simp⟩
    · rw [← tblRead_eq_getElem]; exact hw
    · have h := hlt (BitVec.ofNat 11 j) (by rw [index_ofNat_toNat (by omega)]; exact hj)
      rw [tblRead_eq_getElem] at h
      simpa [index_ofNat_toNat (show j < 2048 by omega)] using h

/-- `TblFind` finds nothing when no entry equals the word (R128). -/
theorem tblFind_eq_none (t : Table W) (w : W) : tblFind t w = none ↔ ∀ i : Index, tblRead t i ≠ w := by
  constructor
  · intro h i hi
    have hm : w ∈ t.toList := by
      rw [← hi, tblRead_eq_getElem]; exact List.getElem_mem _
    simp only [tblFind, Option.map_eq_none_iff, List.findIdx?_eq_none_iff, decide_eq_false_iff_not] at h
    exact h w hm rfl
  · intro h
    simp only [tblFind, Option.map_eq_none_iff, List.findIdx?_eq_none_iff, decide_eq_false_iff_not]
    intro v hv hvw
    obtain ⟨k, hk, rfl⟩ := List.getElem_of_mem hv
    have hk' : k < 2048 := by simpa using hk
    refine h (BitVec.ofNat 11 k) ?_
    rw [tblRead_eq_getElem]
    simpa [index_ofNat_toNat hk'] using hvw

/-- What an accepted `TBL.LOAD` does (R121, R192). -/
theorem execTblLoad_next [Inhabited W] {src : List W} {s t : State W} (h : execTblLoad src s = .next t) :
    s.mode = .unconfigured ∧
      ((∃ rom, tableOf src = some rom ∧ t = { s with rom := rom, mode := .ready }) ∨
        (tableOf src = none ∧ t = haltConfigurationError s)) := by
  simp only [execTblLoad, requireMode] at h
  split at h
  · refine ⟨‹_›, ?_⟩
    cases hs : tableOf src with
    | some rom => rw [hs] at h; cases h; exact .inl ⟨rom, rfl, rfl⟩
    | none => rw [hs] at h; cases h; exact .inr ⟨rfl, rfl⟩
  · cases h

/-- `TBL.LOAD` leaves a valid table in `READY` (I7 of R34): the table's form is kept. -/
theorem execTblLoad_romWf [Inhabited W] {src : List W} {s t : State W} (h : execTblLoad src s = .next t) :
    t.mode = .ready → validWordList t.rom.toList = true := by
  obtain ⟨-, ⟨rom, hr, rfl⟩ | ⟨-, rfl⟩⟩ := execTblLoad_next h
  · intro _
    obtain ⟨hv, rfl⟩ := (tableOf_eq_some _ _).1 hr
    exact hv
  · rintro ⟨⟩

end Sys2Proof.Machine
end

