-- ==== Sys2Proof/Laws/Units.lean ====
section
/-! SUPPORT. The bodies of the push commands, case by case: an encoder push that completes no word and one that does
(R142), a decoder push with one pass and with two (R162), and that the decoder's loop always ends below 8 bits. -/

namespace Sys2Proof.Machine

/-- R142: zero beats when the old `ENC.CNT` is at most 2. -/
theorem encPushUnit_noWord (b : Byte) {e : EncUnit} (h : e.cnt.toNat ≤ 2) :
    encPushUnit b e = (⟨appendByte e.acc b, e.cnt + 8#5, true⟩, []) := by
  have hc : ¬ 11#5 ≤ e.cnt + 8#5 := by simp only [BitVec.le_def, BitVec.toNat_add, BitVec.toNat_ofNat]; omega
  simp [encPushUnit, hc]

/-- R142: one word beat when the old `ENC.CNT` is 3 to 10. -/
theorem encPushUnit_word (b : Byte) {e : EncUnit} (h : 3 ≤ e.cnt.toNat) (h' : e.cnt.toNat ≤ 10) :
    encPushUnit b e =
      (⟨keepLow (appendByte e.acc b) (e.cnt - 3#5), e.cnt - 3#5, true⟩,
        [.W (topIndex (appendByte e.acc b) (e.cnt - 3#5))]) := by
  have hc : 11#5 ≤ e.cnt + 8#5 := by simp only [BitVec.le_def, BitVec.toNat_add, BitVec.toNat_ofNat]; omega
  have hr : e.cnt + 8#5 - 11#5 = e.cnt - 3#5 := by bv_omega
  simp [encPushUnit, hc, hr]

/-- An encoder push emits at most one beat, and it is a word (R142: "Never two"). -/
theorem encPushUnit_beats (b : Byte) (e : EncUnit) :
    (encPushUnit b e).2 = [] ∨ ∃ i, (encPushUnit b e).2 = [.W i] := by
  unfold encPushUnit
  by_cases h : 11#5 ≤ e.cnt + 8#5
  · exact .inr ⟨topIndex (appendByte e.acc b) (e.cnt + 8#5 - 11#5), by simp [h]⟩
  · exact .inl (by simp [h])

/-- R162: one pass when the old `DEC.CNT` is at most 4. -/
theorem decPushUnit_onePass (i : Index) {d : DecUnit} (h : d.cnt.toNat ≤ 4) :
    decPushUnit i d =
      (⟨keepLow (appendIndex d.acc i) (d.cnt + 3#5), d.cnt + 3#5,
          topByte (appendIndex d.acc i) (d.cnt + 3#5), true⟩, heldBeats d) := by
  have h1 : 8#5 ≤ d.cnt + 11#5 := by simp only [BitVec.le_def, BitVec.toNat_add, BitVec.toNat_ofNat]; omega
  have hr : d.cnt + 11#5 - 8#5 = d.cnt + 3#5 := by bv_omega
  have h2 : ¬ 8#5 ≤ d.cnt + 3#5 := by simp only [BitVec.le_def, BitVec.toNat_add, BitVec.toNat_ofNat]; omega
  simp [decPushUnit, decDrain, decPass, heldBeats, h1, h2, hr]

/-- R162: two passes when the old `DEC.CNT` is 5 to 7. -/
theorem decPushUnit_twoPasses (i : Index) {d : DecUnit} (h : 5 ≤ d.cnt.toNat) (h' : d.cnt.toNat ≤ 7) :
    decPushUnit i d =
      (⟨keepLow (keepLow (appendIndex d.acc i) (d.cnt + 3#5)) (d.cnt - 5#5), d.cnt - 5#5,
          topByte (keepLow (appendIndex d.acc i) (d.cnt + 3#5)) (d.cnt - 5#5), true⟩,
        heldBeats d ++ [.B (topByte (appendIndex d.acc i) (d.cnt + 3#5))]) := by
  have h1 : 8#5 ≤ d.cnt + 11#5 := by simp only [BitVec.le_def, BitVec.toNat_add, BitVec.toNat_ofNat]; omega
  have hr : d.cnt + 11#5 - 8#5 = d.cnt + 3#5 := by bv_omega
  have h2 : 8#5 ≤ d.cnt + 3#5 := by simp only [BitVec.le_def, BitVec.toNat_add, BitVec.toNat_ofNat]; omega
  have hr2 : d.cnt + 3#5 - 8#5 = d.cnt - 5#5 := by bv_omega
  have h3 : ¬ 8#5 ≤ d.cnt - 5#5 := by simp only [BitVec.le_def, BitVec.toNat_sub, BitVec.toNat_ofNat]; omega
  simp [decPushUnit, decDrain, decPass, heldBeats, h1, h2, h3, hr, hr2]

/-- The loop condition fails after `n` passes of a count below `8 * (n + 1)`: three passes end it from any count. -/
theorem decDrain_cnt_lt (n : Nat) (d : DecUnit) (h : d.cnt.toNat < 8 * (n + 1)) :
    (decDrain n d).1.cnt.toNat < 8 := by
  induction n generalizing d with
  | zero => simpa [decDrain] using h
  | succ n ih =>
    unfold decDrain
    by_cases hc : 8#5 ≤ d.cnt
    · simp only [hc, if_true]
      refine ih _ ?_
      have := BitVec.le_def.1 hc
      simp only [decPass, BitVec.toNat_sub, BitVec.toNat_ofNat] at *
      omega
    · simp only [hc, if_false]
      simp only [BitVec.le_def, BitVec.toNat_ofNat, not_le] at hc
      omega

/-- After a decoder push fewer than 8 bits are buffered, whatever was there before (R162's loop has run to its end). -/
theorem decPushUnit_cnt_lt (i : Index) (d : DecUnit) : (decPushUnit i d).1.cnt.toNat < 8 :=
  decDrain_cnt_lt 3 _ (by have := (d.cnt + 11#5).isLt; omega)

/-- The beats of `DEC.END` when nothing is held: only `EOM` (R165 (a)), whatever `DEC.HOLD` is. -/
theorem decEndBeats_empty {d : DecUnit} (h : d.hv = false) : decEndBeats d = [.EOM] := by
  simp [decEndBeats, heldBeats, h]

end Sys2Proof.Machine
end

