-- ==== Sys2Proof/Tests/Slice0.lean ====
section
/-! SUPPORT. The model's own tests: the well-formedness smoke, decoding of words written out from R92, single-step
vectors of spec/95_test_vectors.md (the test's name gives the vector), and for every statement with hypotheses a
concrete state that meets them (`witness_<name of the statement>`). -/

namespace Sys2Proof.Tests

open Sys2Proof Sys2Proof.Machine Sys2Proof.Machine.Ref

/-! A valid word list with the eight pinned entries of R126; every other entry is its own index as one code unit. -/

def sampleWord (n : Nat) : WORD :=
  match pinnedEntries.find? (fun p => decide (p.1 = n)) with
  | some p => p.2
  | none => ⟨[n]⟩

/-- The index back from the word. -/
def sampleIndex (w : WORD) : Nat :=
  match pinnedEntries.find? (fun p => decide (p.2 = w)) with
  | some p => p.1
  | none => w.units.headD 0

@[irreducible] def sampleList : List WORD := (List.range 2048).map sampleWord

theorem sampleIndex_sampleWord (n : Nat) : sampleIndex (sampleWord n) = n := by
  by_cases h : n = 4 ∨ n = 12 ∨ n = 879 ∨ n = 1503 ∨ n = 1781 ∨ n = 2016 ∨ n = 2044 ∨ n = 2047
  · rcases h with rfl | rfl | rfl | rfl | rfl | rfl | rfl | rfl <;> decide
  · have hw : sampleWord n = ⟨[n]⟩ := by
      have hn : pinnedEntries.find? (fun p => decide (p.1 = n)) = none := by
        simp only [pinnedEntries, List.find?_eq_none, List.mem_cons, List.not_mem_nil, or_false, decide_eq_true_eq]
        rintro p (rfl | rfl | rfl | rfl | rfl | rfl | rfl | rfl) <;> simp only <;> omega
      simp only [sampleWord, hn]
    have hf : pinnedEntries.find? (fun p => decide (p.2 = (⟨[n]⟩ : WORD))) = none := by
      simp only [pinnedEntries, List.find?_eq_none, List.mem_cons, List.not_mem_nil, or_false, decide_eq_true_eq]
      rintro p (rfl | rfl | rfl | rfl | rfl | rfl | rfl | rfl) <;> simp [WORD.ofString]
    simp only [hw, sampleIndex, hf, List.headD_cons]

theorem sampleWord_ne_empty (n : Nat) : sampleWord n ≠ EMPTY := by
  intro h
  have hn := sampleIndex_sampleWord n
  rw [h] at hn
  have : n = 0 := hn ▸ (by decide : sampleIndex EMPTY = 0)
  subst this
  exact absurd h (by decide)

theorem sampleList_eq : sampleList = (List.range 2048).map sampleWord := by unfold sampleList; rfl

theorem length_sampleList : sampleList.length = 2048 := by
  rw [sampleList_eq, List.length_map, List.length_range]

theorem getElem?_sampleList {k : Nat} (h : k < 2048) : sampleList[k]? = some (sampleWord k) := by
  rw [sampleList_eq, List.getElem?_map, List.getElem?_range h]; rfl

theorem sampleList_valid : validWordList sampleList = true := by
  rw [validWordList_iff]
  refine ⟨length_sampleList, ?_, ?_⟩
  · intro w hw
    rw [sampleList_eq] at hw
    obtain ⟨n, -, rfl⟩ := List.mem_map.1 hw
    exact sampleWord_ne_empty n
  · rw [sampleList_eq]
    exact List.nodup_range.map (Function.LeftInverse.injective sampleIndex_sampleWord)

def sampleTable : Table := ⟨⟨sampleList⟩, length_sampleList⟩

theorem toList_sampleTable : sampleTable.toList = sampleList := rfl

theorem tableOf_sampleList : tableOf sampleList = some sampleTable :=
  (tableOf_eq_some _ _).2 ⟨sampleList_valid, rfl⟩

theorem tblRead_sampleTable (i : Index) : tblRead sampleTable i = sampleWord i.toNat := by
  rw [tblRead_eq_getElem, ← Option.some_inj, ← List.getElem?_eq_getElem, toList_sampleTable,
    getElem?_sampleList i.isLt]

theorem sampleTable_validList : ValidList sampleTable.toList := by
  obtain ⟨hl, he, hn⟩ := (validWordList_iff _).1 sampleList_valid
  exact ⟨hl, fun i h => he _ (List.getElem_mem h), fun i j hi hj hij h => hij (hn.getElem_inj_iff.1 h)⟩

/-- R126 can be met. -/
theorem sampleTable_sourceWordList : sourceWordList sampleTable.toList := by
  refine ⟨sampleList_valid, fun p hp => ?_⟩
  simp only [pinnedEntries, List.mem_cons, List.not_mem_nil, or_false] at hp
  rcases hp with rfl | rfl | rfl | rfl | rfl | rfl | rfl | rfl <;>
    exact (getElem?_sampleList (by decide)).trans (by decide)

/-- A word the table does not hold. -/
def absentWord : WORD := ⟨[5000]⟩

theorem absentWord_absent (i : Index) : tblRead sampleTable i ≠ absentWord := by
  rw [tblRead_sampleTable]
  intro h
  have hn := sampleIndex_sampleWord i.toNat
  rw [h] at hn
  have := i.isLt
  exact absurd (hn ▸ (by decide : sampleIndex absentWord = 5000)) (by omega)

/-- A state in `READY` with the sample table and the given units and input. -/
def readyState (e : EncUnit) (d : DecUnit) (q : List HostEvent) : State :=
  { State.reset with mode := .ready, rom := sampleTable, enc := e, dec := d, input := q }

/-- `readyState` between messages, with nothing waiting. -/
def idleState : State := readyState .init (.init 0#8) []

theorem readyState_inv {e : EncUnit} {d : DecUnit} {q : List HostEvent} (he : e.Inv) (hd : d.Inv) :
    (readyState e d q).Inv :=
  ⟨he, hd, fun _ => sampleList_valid, fun h => absurd rfl h, Nat.le_refl _, fun _ => rfl⟩

/-- The encoder's registers and new beats after a command on a unit in `READY`. -/
def encAfter (i : Instr) (e : EncUnit) : Option (EncUnit × List EncBeat) :=
  match exec i { State.reset with mode := .ready, enc := e } with
  | .next t => some (t.enc, t.encOut)
  | .fault _ => none
  | .refused _ => none

/-- The decoder's registers and new beats after a command on a unit in `READY`. -/
def decAfter (i : Instr) (d : DecUnit) : Option (DecUnit × List DecBeat) :=
  match exec i { State.reset with mode := .ready, dec := d } with
  | .next t => some (t.dec, t.decOut)
  | .fault _ => none
  | .refused _ => none

/-- Whether the command is refused in the mode. -/
def refusedIn (m : Mode) (i : Instr) : Bool :=
  match exec i { State.reset with mode := m } with
  | .next _ => false
  | .fault _ => false
  | .refused _ => true

/-! The well-formedness smoke: each check refuses an ill-formed term (R104, R84). -/

theorem test_illformed_opcode : opcodeOk 0x3000#14 = false ∧ opcodeOk 0x3FFF#14 = false ∧
    (.c 0x3800#14 : RawCommand).wellFormed = false := by decide

theorem test_illformed_operand : operandOk 0x0100#14 = false ∧ operandOk 0x07FF#14 = false ∧
    operandOk 0x0801#14 = false ∧ operandOk 0x0FFF#14 = false ∧ operandOk 0x1801#14 = false ∧
    operandOk 0x1FFF#14 = false ∧ operandOk 0x2001#14 = false ∧ operandOk 0x27FF#14 = false := by decide

theorem test_illformed_header : headerOk 3#2 = false ∧
    (.s 3#2 (.one EMPTY) : RawCommand).wellFormed = false := by decide

theorem test_illformed_payload : payloadOk 0#2 (.one (EMPTY : WORD)) = false ∧ payloadOk 1#2 (.list [(EMPTY : WORD)]) = false ∧
    payloadOk 2#2 (.list [(EMPTY : WORD)]) = false := by decide

/-! Decoding, each word written out from R92 (T4), and the boundaries of R104. -/

theorem test_decode_encPush : decode (.c 0b000_000_11011110#14 : RawCommand) = .ok (.encPush 0xDE#8) := by decide
theorem test_decode_encEnd : decode (.c 0b001_00000000000#14 : RawCommand) = .ok .encEnd := by decide
theorem test_decode_decPush : decode (.c 0b010_11011110101#14 : RawCommand) = .ok (.decPush 1781#11) := by decide
theorem test_decode_decMiss : decode (.c 0b011_00000000000#14 : RawCommand) = .ok .decMiss := by decide
theorem test_decode_decEnd : decode (.c 0b100_00000000000#14 : RawCommand) = .ok .decEnd := by decide
theorem test_decode_tblRd : decode (.c 0b101_01101101111#14 : RawCommand) = .ok (.tblRd 879#11) := by decide
theorem test_decode_tblLoad : decode (.s 0b00#2 (.list [(EMPTY : WORD)])) = .ok (.tblLoad [EMPTY]) := by decide
theorem test_decode_tblLookup :
    decode (.s 0b01#2 (.one (WORD.ofString "hygiene"))) = .ok (.tblLookup (.ofString "hygiene")) := by decide
theorem test_decode_decWord :
    decode (.s 0b10#2 (.one (WORD.ofString "riegel"))) = .ok (.decWord (.ofString "riegel")) := by decide

theorem test_decode_reserved_boundaries :
    decode (.c 0x0100#14 : RawCommand) = .error .operand ∧ decode (.c 0x07FF#14 : RawCommand) = .error .operand ∧
    decode (.c 0x0801#14 : RawCommand) = .error .operand ∧ decode (.c 0x1FFF#14 : RawCommand) = .error .operand ∧
    decode (.c 0x27FF#14 : RawCommand) = .error .operand ∧ decode (.c 0x3000#14 : RawCommand) = .error .opcode ∧
    decode (.c 0x3FFF#14 : RawCommand) = .error .opcode ∧ decode (.s 3#2 (.list []) : RawCommand) = .error .header := by decide

theorem test_encode_words : encode (.encPush 0xFF#8 : Instr) = .c 0x00FF#14 ∧ encode (.encEnd : Instr) = .c 0x0800#14 ∧
    encode (.decPush 1024#11 : Instr) = .c 0x1400#14 ∧ encode (.decMiss : Instr) = .c 0x1800#14 ∧
    encode (.decEnd : Instr) = .c 0x2000#14 ∧ encode (.tblRd 2047#11 : Instr) = .c 0x2FFF#14 := by decide

theorem test_table_words : decodeTableWord 16 0x16F5 = some (.decPush 1781#11) ∧
    decodeTableWord 16 0x3000 = none ∧ decodeTableWord 16 0x4000 = none ∧
    decodeTableWord 8 0 = some (.tblLoad []) ∧ decodeTableWord 8 2 = some (.decWord EMPTY) ∧
    decodeTableWord 8 3 = none := by decide

/-- T5: the beats as bits. -/
theorem test_beats : (EncBeat.W 1781#11).bits = 0x6F5#12 ∧ EncBeat.EOM.bits = 0x800#12 ∧
    (DecBeat.B 0x80#8).bits = 0x080#9 ∧ DecBeat.EOM.bits = 0x100#9 ∧
    (LkpBeat.mk true 4#11).bits = 0x804#12 ∧ (LkpBeat.mk true 2047#11).bits = 0xFFF#12 ∧
    (LkpBeat.mk false MISS_IDX).bits = 0x7FF#12 := by decide

/-! Single steps: T9 (V-EP), T10 (V-EE), T12 (V-DP), T13 (V-DE), T7 (V-TBL), T14 (V-MD). -/

theorem test_encPush_V_EP_3 : encAfter (.encPush 0xFF#8) ⟨0x003FF#18, 10#5, true⟩ =
    some (⟨0x0007F#18, 7#5, true⟩, [.W 2047#11]) := by decide
theorem test_encPush_V_EP_7 : encAfter (.encPush 0x80#8) ⟨0x00001#18, 2#5, true⟩ =
    some (⟨0x00180#18, 10#5, true⟩, []) := by decide
theorem test_encEnd_V_EE_9 : encAfter .encEnd ⟨0x00005#18, 3#5, true⟩ =
    some (⟨0#18, 0#5, false⟩, [.W 1408#11, .EOM]) := by decide
theorem test_encEnd_V_EE_1_2 : encAfter .encEnd ⟨0#18, 0#5, false⟩ = some (⟨0#18, 0#5, false⟩, [.EOM]) ∧
    encAfter .encEnd ⟨0#18, 0#5, true⟩ = some (⟨0#18, 0#5, false⟩, [.W 1024#11, .EOM]) := by decide
theorem test_decPush_V_DP_5 : decAfter (.decPush 1024#11) ⟨0x0001F#18, 5#5, 0xAB#8, true⟩ =
    some (⟨0#18, 0#5, 0x00#8, true⟩, [.B 0xAB#8, .B 0xFC#8]) := by decide
theorem test_decPush_V_DP_6 : decAfter (.decPush 0#11) ⟨0#18, 4#5, 0x80#8, true⟩ =
    some (⟨0#18, 7#5, 0x00#8, true⟩, [.B 0x80#8]) := by decide
/-- T18, step 4: the bits already buffered are not altered by a miss. -/
theorem test_decMiss_T18 : decAfter .decMiss ⟨0x00004#18, 3#5, 0x00#8, true⟩ =
    some (⟨0x0003F#18, 6#5, 0x9F#8, true⟩, [.B 0x00#8]) := by decide
theorem test_decEnd_V_DE_2_4 :
    (decAfter .decEnd ⟨0#18, 0#5, 0x80#8, true⟩).map (·.2) = some [.EOM] ∧
    (decAfter .decEnd ⟨0x00004#18, 3#5, 0x80#8, true⟩).map (·.2) = some [.B 0x80#8, .EOM] := by decide
theorem test_decEnd_V_DE_5_clears :
    (decAfter .decEnd ⟨0#18, 3#5, 0x00#8, true⟩).map (fun p => (p.1.acc, p.1.cnt, p.1.hv, p.2)) =
      some (0#18, 0#5, false, [.B 0x00#8, .EOM]) := by decide

theorem test_decWord_hit_T16 : ∃ t, exec (.decWord (.ofString "riegel")) idleState = .next t ∧
    t.dec = (decPushUnit 1503#11 idleState.dec).1 := by
  have hf : tblFind sampleTable (.ofString "riegel") = some 1503#11 := by
    rw [tblFind_eq_some]
    refine ⟨(tblRead_sampleTable _).trans (by decide), fun j hj h => ?_⟩
    rw [tblRead_sampleTable] at h
    have h1 := sampleIndex_sampleWord j.toNat
    rw [h, show sampleIndex (.ofString "riegel") = 1503 by decide] at h1
    rw [show (1503#11).toNat = 1503 from rfl] at hj
    omega
  refine ⟨_, execDecWord_next.2 ⟨rfl, rfl⟩, ?_⟩
  simp [tblSub, idleState, readyState, hf, decPushBody]

theorem test_decWord_miss_V_DP_12 : exec (.decWord absentWord) idleState = exec .decMiss idleState := by
  have hf := (tblFind_eq_none sampleTable absentWord).2 absentWord_absent
  simp [execDecWord, execDecMiss, requireMode, idleState, readyState, hf]

theorem test_tblRd_V_TBL_11 : ∃ t, exec (.tblRd 4#11) idleState = .next t ∧ t.tblOut = [.ofString "abend"] := by
  refine ⟨_, execTblRd_next.2 ⟨rfl, rfl⟩, ?_⟩
  show [] ++ [tblRead sampleTable 4#11] = _
  rw [tblRead_sampleTable]
  decide

theorem test_tblLookup_V_TBL_17 : ∃ t, exec (.tblLookup absentWord) idleState = .next t ∧
    t.lkpOut.map LkpBeat.bits = [0x7FF#12] := by
  have hf := (tblFind_eq_none sampleTable absentWord).2 absentWord_absent
  refine ⟨_, execTblLookup_next.2 ⟨rfl, rfl⟩, ?_⟩
  simp only [State.emitLkp_lkpOut, tblSub, idleState, readyState, hf]
  decide

theorem test_tblLoad_V_TBL_1 : ∃ t, exec (.tblLoad sampleList) State.reset = .next t ∧ t.mode = .ready ∧
    t.rom = sampleTable := by
  refine ⟨{ State.reset with mode := .ready, rom := sampleTable }, ?_, rfl, rfl⟩
  simp only [exec_tblLoad, execTblLoad, tableOf_sampleList]
  rfl

theorem test_tblLoad_V_TBL_2 : ∃ t, exec (.tblLoad []) State.reset = .next t ∧ t.mode = .halted ∧
    t.cfgErr = true := ⟨haltConfigurationError State.reset, rfl, rfl, rfl⟩

theorem test_mode_gating_V_MD : refusedIn .unconfigured (.encPush 0#8) = true ∧
    refusedIn .unconfigured .decEnd = true ∧ refusedIn .unconfigured (.tblRd 0#11) = true ∧
    refusedIn .halted (.tblLoad []) = true ∧ refusedIn .ready (.tblLoad []) = true := by decide

/-- R197 (a): `RESET` beside a command; the command is not executed (V-MD-11). -/
theorem test_reset_overrides_command : ∃ t,
    step (readyState ⟨0x0D#18, 5#5, true⟩ ⟨5#18, 3#5, 0xDE#8, true⟩ [⟨true, some (.c 0x0800#14)⟩]) = .next t ∧
      t.mode = .unconfigured ∧ t.enc = .init ∧ t.dec.hv = false ∧ t.encOut = [] ∧ t.input = [] :=
  ⟨_, rfl, rfl, rfl, rfl, rfl, rfl⟩

theorem test_reserved_word_refused_V_MD_10 : ∃ why,
    step (readyState .init (.init 0#8) [⟨false, some (.c 0x3000#14)⟩]) = .refused (.reservedEncoding why) :=
  ⟨.opcode, rfl⟩

/-- The reference functions against T8 (V-ENC-9, V-ENC-12) and T11 (V-DEC-14, V-DEC-30). -/
theorem test_reference_vectors :
    encodeIdx [0xDE#8, 0xAD#8, 0xBE#8, 0xEF#8] = [1781#11, 879#11, 1503#11] ∧
    encodeIdx (List.replicate 7 0x80#8) = [1028#11, 32#11, 257#11, 8#11, 64#11, 512#11] ∧
    decodeIdx [1781#11, 2047#11, 1503#11] = [0xDE#8, 0xBF#8, 0xFE#8, 0xEF#8] ∧
    decodeIdx [1028#11, 0#11] = [0x80#8] := by decide

/-! Witnesses: concrete states that meet the hypotheses of the statements. -/

/-- Mid-message in both units, with one encoder command waiting (the state before step 4 of P1, and P2's). -/
def midState : State :=
  readyState ⟨0xDE#18, 8#5, true⟩ ⟨0x2F#18, 6#5, 0xAD#8, true⟩ [Trace.command (.encPush 0xAD#8)]

theorem midState_inv : midState.Inv := readyState_inv (by decide) (by decide)

theorem midState_step : ∃ t, step midState = .next t := ⟨_, rfl⟩

/-- The same state waiting for `RESET` beside a command. -/
def resetWaiting (m : Mode) : State :=
  { midState with mode := m, input := [⟨true, some (.c 0x2000#14)⟩, ⟨false, none⟩] }

theorem witness_RegisterValuesAfterResetAndEnd : idleState.mode = .ready ∧
    (resetWaiting .ready).input = ⟨true, some (.c 0x2000#14)⟩ :: [⟨false, none⟩] := ⟨rfl, rfl⟩

theorem witness_ResetEventClearsTheBlockInEveryMode :
    ((resetWaiting .halted).input = ⟨true, some (.c 0x2000#14)⟩ :: [⟨false, none⟩]) ∧
    (∃ t, step ({ State.reset with mode := .halted } : State) = .next t) ∧
    (∃ t, step midState = .next t ∧ midState.mode = .ready ∧ ∀ c rest, midState.input ≠ ⟨true, c⟩ :: rest) :=
  ⟨rfl, ⟨_, rfl⟩, ⟨_, rfl, rfl, by simp [midState, readyState, Trace.command]⟩⟩

theorem witness_EveryStepKeepsTheInvariant : midState.Inv ∧ ∃ t, step midState = .next t :=
  ⟨midState_inv, midState_step⟩

theorem witness_StepRunsTheDecodedCommand :
    midState.input = ⟨false, some (.c 0x00AD#14)⟩ :: [] ∧ decode (.c 0x00AD#14 : RawCommand) = .ok (.encPush 0xAD#8) :=
  ⟨by decide, by decide⟩

theorem witness_NothingHappensWithoutTheHost : State.reset.input = [] ∧
    (readyState .init (.init 0#8) [⟨false, none⟩]).input = ⟨false, none⟩ :: [] := ⟨rfl, rfl⟩

/-- One step for each of R21's transitions, and two that keep the mode: a command in `READY`, nothing in `UNCONFIGURED`. -/
theorem witness_ModeChangesOnlyByResetAndLoad :
    (∃ t, step (resetWaiting .halted) = .next t ∧ t.mode = .unconfigured) ∧
    (∃ t, step { State.reset with input := [Trace.command (.tblLoad sampleList)] } = .next t ∧ t.mode = .ready) ∧
    (∃ t, step { State.reset with input := [Trace.command (.tblLoad [])] } = .next t ∧ t.mode = .halted) ∧
    (∃ t, step midState = .next t ∧ t.mode = .ready) ∧ (∀ c rest, midState.input ≠ ⟨true, c⟩ :: rest) ∧
    (∃ t, step State.reset = .next t) ∧ State.reset.mode = .unconfigured ∧ (∀ ev rest, State.reset.input ≠ ev :: rest) ∧
    ValidList sampleTable.toList ∧ ¬ ValidList ([] : List WORD) := by
  refine ⟨⟨_, rfl, rfl⟩, ⟨{ State.reset with mode := .ready, rom := sampleTable }, ?_, rfl⟩, ⟨_, rfl, rfl⟩, ⟨_, rfl, rfl⟩,
    by simp [midState, readyState, Trace.command], ⟨_, rfl⟩, rfl, fun _ _ h => (by cases h), sampleTable_validList,
    fun h => absurd h.1 (by decide)⟩
  show exec (.tblLoad sampleList) State.reset = _
  simp only [exec_tblLoad, execTblLoad, tableOf_sampleList]
  rfl

theorem witness_StatusOutputsFollowTheMode : State.reset.mode = .unconfigured := rfl

theorem witness_DecoderFollowsTheOpcodeMap : decode (.c 0x2FFF#14 : RawCommand) = .ok (.tblRd 2047#11) ∧
    decode (.c 0x3000#14 : RawCommand) = .error .opcode ∧ decode (.s 2#2 (.one (EMPTY : WORD))) = .ok (.decWord EMPTY) := by decide

theorem witness_ReservedEncodingsAreRefused :
    (readyState .init (.init 0#8) [⟨false, some (.c 0x27FF#14)⟩]).input = [⟨false, some (.c 0x27FF#14)⟩] ∧
    (0x2001 ≤ (0x27FF#14).toNat ∧ (0x27FF#14).toNat ≤ 0x07FF + 0x2000) ∧
    (readyState .init (.init 0#8) [⟨false, some (.s 0b11#2 (.list []))⟩]).input =
      [⟨false, some (.s 0b11#2 (.list []))⟩] := ⟨rfl, by decide, rfl⟩

theorem witness_OutputBeatsAsBits : (∃ t, exec (.tblLookup absentWord) idleState = .next t) ∧
    ∀ i, tblRead idleState.rom i ≠ absentWord :=
  ⟨⟨_, execTblLookup_next.2 ⟨rfl, rfl⟩⟩, absentWord_absent⟩

theorem witness_AcceptanceTable : accepts .encEnd idleState.mode = true ∧
    accepts (.tblLoad []) State.reset.mode = true ∧ accepts (.tblLoad []) idleState.mode = false ∧
    accepts .decEnd State.reset.mode = false ∧
    (resetWaiting .halted).input = ⟨true, some (.c 0x2000#14)⟩ :: [⟨false, none⟩] ∧
    decode (.c 0x3FFF#14 : RawCommand) = .error .opcode := by decide

/-- The boundary counts of the two clauses: 0 and 2, 3 and 10. -/
theorem witness_EncPushAppendsAByteAndEmitsAWordAtElevenBits :
    State.reset.mode ≠ .ready ∧ idleState.mode = .ready ∧ EncUnit.init.Inv ∧
    (⟨3#18, 2#5, true⟩ : EncUnit).Inv ∧ (⟨7#18, 3#5, true⟩ : EncUnit).Inv ∧
    (⟨0x3FF#18, 10#5, true⟩ : EncUnit).Inv := by decide

/-- The three cases: `r = 1` and `r = 10`, the exact boundary, the empty message. -/
theorem witness_EncEndEmitsTheTerminatorAndClearsTheUnit :
    State.reset.mode ≠ .ready ∧ (⟨1#18, 1#5, true⟩ : EncUnit).Inv ∧ (⟨0x3FF#18, 10#5, true⟩ : EncUnit).Inv ∧
    (⟨0#18, 0#5, true⟩ : EncUnit).Inv ∧ (⟨0#18, 0#5, false⟩ : EncUnit).Inv := by decide

theorem witness_EncoderCommandsFrame : isEncCommand (.encPush 0#8) = true ∧
    ∃ t, exec (.encPush 0#8) midState = .next t := ⟨rfl, _, rfl⟩

theorem witness_TerminatorWordsAreTheNonZeroIndices : (10 ≤ 10 ∧ 1023 < 2 ^ 10) ∧ (0 ≤ 10 ∧ 0 < 2 ^ 0) ∧
    (0 < 2047 ∧ 2047 < 2048) := by decide

theorem witness_EncoderAfterEveryPush :
    (readyState .init (.init 0#8) ([0xDE#8, 0xAD#8].map (fun b => Trace.command (.encPush b)) ++ [])).enc = .init ∧
    idleState.mode = .ready := ⟨rfl, rfl⟩

theorem witness_EncoderMessageEqualsEncodeIdx :
    (readyState .init (.init 0#8) (Trace.encMsg [0xDE#8, 0xAD#8] ++ [])).input =
      Trace.encMsg [0xDE#8, 0xAD#8] ++ [] ∧
    (readyState .init (.init 0#8) (Trace.encMsg [0xDE#8, 0xAD#8] ++ [])).mode = .ready := ⟨rfl, rfl⟩

/-- Eleven bytes end on an exact boundary. -/
theorem witness_EncodedMessageProperties : List.replicate 11 0x55#8 ≠ [] ∧
    8 * (List.replicate 11 0x55#8).length % 11 = 0 := by decide

/-- The boundary counts of the two clauses: 0 and 4, 5 and 7. -/
theorem witness_DecPushAppendsAnIndexAndExtractsBytes :
    State.reset.mode ≠ .ready ∧ (DecUnit.init 0#8).Inv ∧ (⟨15#18, 4#5, 0x80#8, true⟩ : DecUnit).Inv ∧
    (⟨31#18, 5#5, 0xAB#8, true⟩ : DecUnit).Inv ∧ (⟨127#18, 7#5, 0x12#8, true⟩ : DecUnit).Inv := by decide

theorem witness_DecMissPushesElevenOnes : State.reset.mode ≠ .ready ∧ idleState.mode = .ready := by decide

theorem witness_DecWordLooksUpAndPushes : State.reset.mode ≠ .ready ∧ idleState.mode = .ready ∧
    idleState.RomWf ∧ tblRead idleState.rom 4#11 = .ofString "abend" ∧
    (∀ i, tblRead idleState.rom i ≠ absentWord) ∧ ∃ t, exec (.tblLookup absentWord) idleState = .next t :=
  ⟨by decide, rfl, fun _ => sampleList_valid, (tblRead_sampleTable _).trans (by decide), absentWord_absent,
    _, execTblLookup_next.2 ⟨rfl, rfl⟩⟩

theorem witness_DecEndStripsOrReleasesTheHeldByte : State.reset.mode ≠ .ready ∧ midState.mode = .ready := by decide

theorem witness_DecoderCommandsFrame : isDecCommand .decEnd = true ∧ ∃ t, exec .decEnd midState = .next t :=
  ⟨rfl, _, rfl⟩

/-- Ready for a message whose predecessor was abandoned by `RESET` with the byte `0xDE` out. -/
def afterAbandoned (q : List HostEvent) : State :=
  { readyState .init (.init 0#8) q with decOut := [.B 0xDE#8], decOutAtReset := 1 }

theorem witness_DecoderAfterEveryPush :
    (afterAbandoned []).mode = .ready ∧ (afterAbandoned []).dec.Initial ∧
    (afterAbandoned []).decOutAtReset ≤ (afterAbandoned []).decOut.length ∧ sentBytes (afterAbandoned []) = [] ∧
    bytesSinceEom (afterAbandoned []).decOut ≠ [] ∧
    (afterAbandoned ([1781#11].map (fun i => Trace.command (.decPush i)) ++ [])).input =
      [1781#11].map (fun i => Trace.command (.decPush i)) ++ [] := by
  refine ⟨rfl, by decide, by decide, rfl, by decide, rfl⟩

/-- The abandoned message of `midState` has no byte out yet but one held; here one is out as well. -/
theorem witness_EmittedSequenceStartsAfreshAtReset :
    ValidList sampleTable.toList ∧ ∃ s : State, emitted s ≠ [] ∧
      s.input = [Trace.reset, Trace.command (.tblLoad sampleTable.toList)] ++
        [1781#11].map (fun i => Trace.command (.decPush i)) ++ [] :=
  ⟨sampleTable_validList,
    { State.reset with decOut := [.B 0xDE#8], dec := ⟨5#18, 3#5, 0xAD#8, true⟩, input := _ },
    show ([0xDE#8] ++ [0xAD#8] : List Byte) ≠ [] by decide, rfl⟩

/-- One pass and two passes; a strip and a release. -/
theorem witness_DecEndDropsOrReleasesTheLastByteOfE : midState.mode = .ready ∧ (DecUnit.init 0#8).Inv ∧
    (⟨127#18, 7#5, 0x12#8, true⟩ : DecUnit).Inv ∧ midState.decOutAtReset ≤ midState.decOut.length ∧
    decEndBeats ⟨0#18, 3#5, 0x80#8, true⟩ = [.EOM] ∧ decEndBeats ⟨1#18, 3#5, 0x80#8, true⟩ = [.B 0x80#8, .EOM] := by
  decide

/-- V-MD: a `RESET` in the middle of a message leaves the byte that is out on `DEC_OUT` and starts `E` afresh. -/
theorem test_reset_starts_E_afresh : ∃ t,
    step { readyState .init ⟨5#18, 3#5, 0xAD#8, true⟩ [Trace.reset] with decOut := [.B 0xDE#8] } = .next t ∧
      t.decOut = [.B 0xDE#8] ∧ emitted t = [] :=
  ⟨_, rfl, rfl, rfl⟩

theorem witness_DecoderMessageEqualsDecodeIdx : idleState.mode = .ready ∧ idleState.dec.Initial ∧
    (readyState .init (.init 0#8) (Trace.decIdx [some 4#11, none] ++ [])).input =
      Trace.decIdx [some 4#11, none] ++ [] := ⟨rfl, by decide, rfl⟩

theorem witness_DecoderMessageEqualsDecode : idleState.mode = .ready ∧ idleState.dec.Initial ∧
    (readyState .init (.init 0#8) (Trace.decMsg [.ofString "abend", absentWord] ++ [])).input =
      Trace.decMsg [.ofString "abend", absentWord] ++ [] := ⟨rfl, by decide, rfl⟩

/-- A message with `r = 2` and one with `r = 8`. -/
theorem witness_StripCasesOnEncoderOutput : [0x12#8, 0x34#8, 0x56#8] ≠ [] ∧ 8 * 3 % 11 ≤ 3 ∧
    [0x80#8] ≠ [] ∧ ¬ 8 * 1 % 11 ≤ 3 := by decide

theorem witness_DecodingAnEncodedMessageGivesItBack : ValidList sampleTable.toList := sampleTable_validList

theorem witness_UnknownWordIsNotAFault : idleState.mode = .ready ∧ ∀ k, tblRead idleState.rom k ≠ absentWord :=
  ⟨rfl, absentWord_absent⟩

theorem not_validList_nil : ¬ ValidList ([] : List WORD) := fun h => absurd h.1 (by decide)

theorem witness_TblLoadStoresAValidListOrHalts : idleState.mode ≠ .unconfigured ∧
    State.reset.mode = .unconfigured ∧ ValidList sampleTable.toList ∧ ¬ ValidList ([] : List WORD) :=
  ⟨by decide, rfl, sampleTable_validList, not_validList_nil⟩

theorem witness_ConfigurationErrorHaltsForGood : State.reset.mode = .unconfigured ∧ ¬ ValidList ([] : List WORD) ∧
    (∃ t, exec (.tblLoad []) State.reset = .next t) :=
  ⟨rfl, not_validList_nil, haltConfigurationError State.reset, rfl⟩

theorem witness_TblRdReturnsTheWordAtTheIndex : State.reset.mode ≠ .ready ∧ idleState.mode = .ready := by decide

theorem witness_TblLookupReportsHitOrMiss : State.reset.mode ≠ .ready ∧ idleState.mode = .ready ∧
    idleState.RomWf ∧ tblRead idleState.rom 2047#11 = .ofString "zyklus" ∧
    (∀ i, tblRead idleState.rom i ≠ absentWord) :=
  ⟨by decide, rfl, fun _ => sampleList_valid, (tblRead_sampleTable _).trans (by decide), absentWord_absent⟩

theorem witness_LookupLaws : ValidList sampleTable.toList := sampleTable_validList

theorem witness_TableCommandsFrame : isEncCommand (.tblRd 0#11) = false ∧ isDecCommand (.tblRd 0#11) = false ∧
    (∃ t, exec (.tblRd 0#11) idleState = .next t) ∧ (∃ t, exec (.tblLookup absentWord) idleState = .next t) ∧
    (∃ t, exec (.tblLoad []) State.reset = .next t) :=
  ⟨rfl, rfl, ⟨_, execTblRd_next.2 ⟨rfl, rfl⟩⟩, ⟨_, execTblLookup_next.2 ⟨rfl, rfl⟩⟩,
    ⟨haltConfigurationError State.reset, rfl⟩⟩

theorem witness_TableIsImmutableWhileReady : midState.mode = .ready ∧ ∃ t, step midState = .next t :=
  ⟨rfl, midState_step⟩

theorem witness_SourceVectors : sourceWordList sampleTable.toList ∧ ∀ i, tblRead sampleTable i ≠ absentWord :=
  ⟨sampleTable_sourceWordList, absentWord_absent⟩

theorem witness_EncoderAndDecoderCommandsCommute :
    isEncCommand (.encPush 0xAD#8) = true ∧ isDecCommand (.decPush 1503#11) = true ∧
    (∃ t u, exec (.encPush 0xAD#8) midState = .next t ∧ exec (.decPush 1503#11) t = .next u) ∧
    (∃ t u, exec (.decPush 1503#11) midState = .next t ∧ exec (.encPush 0xAD#8) t = .next u) :=
  ⟨rfl, rfl, ⟨_, _, rfl, rfl⟩, ⟨_, _, rfl, rfl⟩⟩

theorem witness_EncoderReadsOnlyItsOwnRegisters : midState.mode = { midState with dec := .init 0#8 }.mode ∧
    midState.enc = { midState with dec := .init 0#8 }.enc ∧ ∃ t, exec .encEnd midState = .next t :=
  ⟨rfl, rfl, _, rfl⟩

theorem witness_DecoderReadsOnlyItsOwnRegisters : midState.mode = { midState with enc := .init }.mode ∧
    midState.dec = { midState with enc := .init }.dec ∧ midState.rom = { midState with enc := .init }.rom ∧
    ∃ t, exec (.decWord absentWord) midState = .next t :=
  ⟨rfl, rfl, rfl, _, execDecWord_next.2 ⟨rfl, rfl⟩⟩

/-- Two states that differ in the unspecified value of `DEC.HOLD`, with a step that goes on and one that is refused. -/
theorem witness_UnspecifiedValuesNeverShow :
    (readyState .init (.init 0x00#8) []).Agrees (readyState .init (.init 0xFF#8) []) ∧
    (∃ t, step (readyState .init (.init 0x00#8) []) = .next t) ∧
    (∃ r, step (readyState .init (.init 0x00#8) [⟨false, some (.c 0x3000#14)⟩]) = .refused r) :=
  ⟨⟨rfl, fun _ => rfl, rfl, ⟨rfl, rfl, rfl⟩, fun h => (by cases h), rfl, rfl, rfl, rfl, rfl, rfl⟩, ⟨_, rfl⟩, ⟨_, rfl⟩⟩

theorem witness_EventHistoryInfluencesNothing : ∃ t, exec .encEnd midState = .next t := ⟨_, rfl⟩

theorem witness_StreamsOnlyGrowAndByFewBeats : midState.Inv ∧ ∃ t, step midState = .next t :=
  ⟨midState_inv, midState_step⟩

/-- A map from `WORD` into another type that keeps `EMPTY`. -/
def toOption (w : WORD) : Option (List Nat) := if w.units = [] then none else some w.units

theorem witness_WordsAreOpaque : Function.Injective toOption ∧ toOption EMPTY = EMPTY ∧
    (∃ t, stepOf midState = .next t) ∧
    ∃ r, stepOf { State.reset with input := [Trace.command .encEnd] } = .refused r := by
  refine ⟨?_, by decide, ⟨_, rfl⟩, ⟨_, rfl⟩⟩
  rintro ⟨a⟩ ⟨b⟩ h
  by_cases ha : a = [] <;> by_cases hb : b = [] <;> simp_all [toOption]

/-- A table over another word type, the natural numbers with `EMPTY = 0`: entry `i` is `i + 1`. -/
@[irreducible] def natTable : Table Nat := Vector.ofFn fun i => i.val + 1

theorem getElem_natTable {k : Nat} (h : k < 2048) : natTable[k] = k + 1 := by
  unfold natTable; exact Vector.getElem_ofFn h

theorem tblRead_natTable (i : Index) : tblRead natTable i = i.toNat + 1 := getElem_natTable i.isLt

theorem natTable_validList : ValidList natTable.toList := by
  have hg : ∀ (k : Nat) (h : k < natTable.toList.length), natTable.toList[k] = k + 1 := fun k h => by
    rw [Vector.getElem_toList]; exact getElem_natTable (by simpa using h)
  refine ⟨by simp, fun k h => ?_, fun i j hi hj hij h => hij ?_⟩
  · rw [hg]; exact Nat.succ_ne_zero k
  · rw [hg, hg] at h; omega

def natState (m : Mode) : State Nat := { State.resetOf Nat with mode := m, rom := natTable }

theorem tblRead_natState (m : Mode) (i : Index) : tblRead (natState m).rom i = i.toNat + 1 := tblRead_natTable i

theorem natState_romWf : (natState .ready).RomWf := fun _ =>
  (validWordList_iff _).2 ⟨natTable_validList.1, fun w hw => by
      obtain ⟨k, hk, rfl⟩ := List.getElem_of_mem hw; exact natTable_validList.2.1 k hk,
    List.nodup_iff_injective_get.2 fun i j h =>
      Fin.ext (by by_contra hij; exact natTable_validList.2.2 i j i.isLt j.isLt hij h)⟩

theorem witness_EveryWordTypeRunsTheSameCommands : (natState .ready).mode = .ready ∧ (natState .ready).RomWf ∧
    tblRead (natState .ready).rom 4#11 = 5 ∧ (∀ i, tblRead (natState .ready).rom i ≠ 0) ∧
    (natState .unconfigured).mode = .unconfigured ∧ ValidList natTable.toList ∧ ¬ ValidList ([] : List Nat) ∧
    (natState .halted).mode ≠ .ready ∧ (Instr.decEnd : Instr Nat).mnemonic ≠ .TBL_LOAD :=
  ⟨rfl, natState_romWf, tblRead_natState .ready 4#11, fun i => by rw [tblRead_natState]; omega,
    rfl, natTable_validList, fun h => absurd h.1 (by decide), by decide, by decide⟩

theorem witness_EndingBothMessagesIsFinal : midState.mode = .ready ∧ idleState.Inv ∧ idleState.Final :=
  ⟨rfl, readyState_inv (by decide) (by decide), by decide⟩

theorem witness_StartUpEncodeReadDecodeRoundTrip : ValidList sampleTable.toList ∧
    ∃ s : State, s.mode = .halted ∧ s.input = [Trace.reset, Trace.command (.tblLoad sampleTable.toList)] ++
      Trace.encMsg [0x00#8] ++ (encodeIdx [0x00#8]).map (fun k => Trace.command (.tblRd k)) ++
      Trace.decMsg (encodeWords sampleTable [0x00#8]) :=
  ⟨sampleTable_validList, { State.reset with mode := .halted, input := _ }, rfl, rfl⟩

end Sys2Proof.Tests
end

section
/-! Facts about the table and the step that the statements of this family need beside Laws/Table.lean and Laws/Step.lean. -/

namespace Sys2Proof.Machine

variable {W : Type} [DecidableEq W]

/-- R122 written out (V1, V2, V3) is the validity test of the machine. -/
theorem validList_iff_validWordList [Inhabited W] (src : List W) : ValidList src ↔ validWordList src = true := by
  rw [validWordList_iff, List.forall_mem_iff_getElem, List.Nodup, List.pairwise_iff_getElem]
  refine and_congr_right fun _ => and_congr_right fun _ => ⟨fun h i j hi hj hij => h i j hi hj hij.ne, ?_⟩
  intro h i j hi hj hij
  rcases Nat.lt_or_gt_of_ne hij with hlt | hgt
  · exact h i j hi hj hlt
  · exact (h j i hj hi hgt).symm

theorem exists_tableOf_eq_some [Inhabited W] {src : List W} (hv : ValidList src) :
    ∃ t, tableOf src = some t ∧ t.toList = src := by
  have hv' := (validList_iff_validWordList src).1 hv
  exact ⟨⟨⟨src⟩, hv.1⟩, (tableOf_eq_some _ _).2 ⟨hv', rfl⟩, rfl⟩

theorem tableOf_eq_none_of_not_validList [Inhabited W] {src : List W} (hv : ¬ ValidList src) :
    tableOf src = none := by
  rw [validList_iff_validWordList, Bool.not_eq_true] at hv
  exact (tableOf_eq_none src).2 hv

/-- V3: in a valid table an index is determined by its word. -/
theorem tblRead_injective [Inhabited W] {t : Table W} (hv : validWordList t.toList = true) :
    Function.Injective (tblRead t) := by
  intro i j h
  obtain ⟨-, -, hnodup⟩ := (validWordList_iff _).1 hv
  rw [tblRead_eq_getElem, tblRead_eq_getElem, hnodup.getElem_inj_iff] at h
  exact BitVec.eq_of_toNat_eq h

/-- In a valid table `TblFind` finds the one entry equal to the word, wherever it stands (R128). -/
theorem tblFind_eq_some_iff_of_valid [Inhabited W] {t : Table W} (hv : validWordList t.toList = true) (w : W)
    (i : Index) : tblFind t w = some i ↔ tblRead t i = w := by
  rw [tblFind_eq_some]
  refine and_iff_left_of_imp fun hi j hj hjw => ?_
  exact hj.ne (congrArg BitVec.toNat (tblRead_injective hv (hjw.trans hi.symm)))

/-! `TBL.LOOKUP` and `DEC.WORD` by what the lookup finds (R124, R164) -/

theorem execTblLookup_of_tblFind_eq_some {s : State W} {w : W} {i : Index} (hm : s.mode = .ready)
    (hfind : tblFind s.rom w = some i) : execTblLookup w s = .next (s.emitLkp ⟨true, i⟩) := by
  rw [execTblLookup, requireMode_accepted _ hm, hfind]

theorem execTblLookup_of_tblFind_eq_none {s : State W} {w : W} (hm : s.mode = .ready)
    (hfind : tblFind s.rom w = none) : execTblLookup w s = .next (s.emitLkp ⟨false, MISS_IDX⟩) := by
  rw [execTblLookup, requireMode_accepted _ hm, hfind]

theorem execDecWord_of_tblFind_eq_some {s : State W} {w : W} {i : Index} (hfind : tblFind s.rom w = some i) :
    execDecWord w s = execDecPush i s := by
  simp only [execDecWord, execDecPush, requireMode, hfind]

theorem execDecWord_of_tblFind_eq_none {s : State W} {w : W} (hfind : tblFind s.rom w = none) :
    execDecWord w s = execDecMiss s := by
  simp only [execDecWord, execDecMiss, requireMode, hfind]

/-! `TBL.LOAD` by whether the list is valid (R121, R192) -/

theorem execTblLoad_of_tableOf_eq_some [Inhabited W] {src : List W} {s : State W} {rom : Table W}
    (hm : s.mode = .unconfigured) (ht : tableOf src = some rom) :
    execTblLoad src s = .next { s with mode := .ready, rom := rom } := by
  rw [execTblLoad, requireMode_accepted _ hm, ht]

theorem execTblLoad_of_tableOf_eq_none [Inhabited W] {src : List W} {s : State W}
    (hm : s.mode = .unconfigured) (ht : tableOf src = none) :
    execTblLoad src s = .next (haltConfigurationError s) := by
  rw [execTblLoad, requireMode_accepted _ hm, ht]

/-- R196: every command but `TBL.LOAD` stands behind the mode check for `READY`. -/
theorem execOf_eq_requireMode_ready [Inhabited W] {i : Instr W} (hi : i.mnemonic ≠ .TBL_LOAD) :
    ∃ act : State W → State W, ∀ s, execOf i s = requireMode .ready s act := by
  cases i
  case tblLoad src => exact absurd rfl hi
  all_goals exact ⟨_, fun _ => rfl⟩

end Sys2Proof.Machine
end

section
/-! The simulation behind R5: an injection of word types that keeps `EMPTY` commutes with every operation that meets
a word, so every command and every step carries over to the renamed state. -/

namespace Sys2Proof.Machine

variable {W V : Type} (f : W → V)

/-- Every word of a command replaced by another. -/
def renameInstr : Instr W → Instr V
  | .encPush b => .encPush b
  | .encEnd => .encEnd
  | .decPush i => .decPush i
  | .decMiss => .decMiss
  | .decEnd => .decEnd
  | .tblRd i => .tblRd i
  | .tblLoad src => .tblLoad (src.map f)
  | .tblLookup w => .tblLookup (f w)
  | .decWord w => .decWord (f w)

/-- The second outcome is the first with every word renamed: next states up to unspecified values (U1, U2), or the same
refusal. -/
inductive RenamedOutcome : Host.Outcome (State W) Fault Refusal → Host.Outcome (State V) Fault Refusal → Prop where
  | next {t : State W} {t' : State V} (h : (renameState f t).Agrees t') : RenamedOutcome (.next t) (.next t')
  | refused (r : Refusal) : RenamedOutcome (.refused r) (.refused r)

theorem State.Agrees.refl (s : State W) : s.Agrees s :=
  ⟨rfl, fun _ => rfl, rfl, ⟨rfl, rfl, rfl⟩, fun _ => rfl, rfl, rfl, rfl, rfl, rfl, rfl⟩

theorem State.Agrees.of_eq {s t : State W} (h : s = t) : s.Agrees t := h ▸ .refl s

variable {f} in
theorem RenamedOutcome.exists_next {o : Host.Outcome (State W) Fault Refusal}
    {o' : Host.Outcome (State V) Fault Refusal} (h : RenamedOutcome f o o') {t : State W} (ho : o = .next t) :
    ∃ t', o' = .next t' ∧ (renameState f t).Agrees t' := by
  subst ho
  cases h with
  | next h => exact ⟨_, rfl, h⟩

variable {f} in
theorem RenamedOutcome.eq_refused {o : Host.Outcome (State W) Fault Refusal}
    {o' : Host.Outcome (State V) Fault Refusal} (h : RenamedOutcome f o o') {r : Refusal} (ho : o = .refused r) :
    o' = .refused r := by
  subst ho
  cases h with
  | refused => rfl

/-! Renaming and the state's operations -/

@[simp] theorem renameState_mode (s : State W) : (renameState f s).mode = s.mode := rfl
@[simp] theorem renameState_rom (s : State W) : (renameState f s).rom = s.rom.map f := rfl

theorem renameState_input_eq {s : State W} {l : List (HostEvent W)} (h : s.input = l) :
    (renameState f s).input = l.map (renameEvent f) := congrArg _ h

theorem renameState_emitTbl (w : W) (s : State W) :
    renameState f (s.emitTbl w) = (renameState f s).emitTbl (f w) := by
  simp [renameState, State.emitTbl]

/-- The tables of the two states hold unspecified values after the event, and cannot be read (U2). -/
theorem haltConfigurationError_renamed [Inhabited W] [Inhabited V] (s : State W) :
    (renameState f (haltConfigurationError s)).Agrees (haltConfigurationError (renameState f s)) :=
  ⟨rfl, nofun, rfl, ⟨rfl, rfl, rfl⟩, fun _ => rfl, rfl, rfl, rfl, rfl, rfl, rfl⟩

theorem resetBlock_renamed [Inhabited W] [Inhabited V] (s : State W) :
    (renameState f (resetBlock s)).Agrees (resetBlock (renameState f s)) :=
  ⟨rfl, nofun, rfl, ⟨rfl, rfl, rfl⟩, fun _ => rfl, rfl, rfl, rfl, rfl, rfl, rfl⟩

/-- The mode check sees no word. -/
theorem requireMode_renamed {m : Mode} {s : State W} {act : State W → State W} {act' : State V → State V}
    (h : s.mode = m → (renameState f (act s)).Agrees (act' (renameState f s))) :
    RenamedOutcome f (requireMode m s act) (requireMode m (renameState f s) act') := by
  by_cases hm : s.mode = m
  · rw [requireMode_accepted act hm, requireMode_accepted act' (by simpa using hm)]
    exact .next (h hm)
  · rw [requireMode_refused act hm, requireMode_refused act' (by simpa using hm)]
    exact .refused _

/-! Renaming and the decoder -/

theorem noOperand_rename (i : Instr W) (opd : BitVec 11) :
    noOperand (renameInstr f i) opd = (noOperand i opd).map (renameInstr f) := by
  unfold noOperand; split <;> rfl

theorem decodeC_rename (x : BitVec 14) : (decodeC x : Except Reserved (Instr V)) = (decodeC x).map (renameInstr f) := by
  unfold decodeC
  split
  · split <;> rfl
  · exact noOperand_rename f .encEnd _
  · rfl
  · exact noOperand_rename f .decMiss _
  · exact noOperand_rename f .decEnd _
  · rfl
  · rfl

theorem decodeS_rename (sop : BitVec 2) (p : Payload W) :
    decodeS sop (renamePayload f p) = (decodeS sop p).map (renameInstr f) := by
  have hsop : sop = 0#2 ∨ sop = 1#2 ∨ sop = 2#2 ∨ sop = 3#2 := by revert sop; decide
  rcases hsop with rfl | rfl | rfl | rfl <;> cases p <;> rfl

/-- Whether and as what a command decodes does not depend on its words (R84). -/
theorem decode_renameRaw (c : RawCommand W) : decode (renameRaw f c) = (decode c).map (renameInstr f) := by
  cases c with
  | c x => exact decodeC_rename f x
  | s sop p => exact decodeS_rename f sop p

/-! Renaming and the table -/

theorem tblRead_map (t : Table W) (i : Index) : tblRead (t.map f) i = f (tblRead t i) := by
  simp [tblRead]

variable {f}

section
variable [DecidableEq W] [DecidableEq V] (hf : Function.Injective f)
include hf

/-- The lookup asks of words only whether two are equal (R128). -/
theorem tblFind_map (t : Table W) (w : W) : tblFind (t.map f) (f w) = tblFind t w := by
  simp [tblFind, Vector.toList_map, List.findIdx?_map, Function.comp_def, hf.eq_iff]

variable [Inhabited W] [Inhabited V] (he : f EMPTY = EMPTY)
include he

/-- Validity asks of words only whether two are equal and whether one is `EMPTY` (R122). -/
theorem validWordList_map (src : List W) : validWordList (src.map f) = validWordList src := by
  have hne (w : W) : f w = EMPTY ↔ w = EMPTY := by rw [← he, hf.eq_iff]
  simp [validWordList, List.nodup_map_iff hf, hne, Function.comp_def]

theorem tableOf_map (src : List W) : tableOf (src.map f) = (tableOf src).map (Vector.map f) := by
  cases ht : tableOf src with
  | none =>
    rw [tableOf_eq_none] at ht
    exact (tableOf_eq_none _).2 ((validWordList_map hf he src).trans ht)
  | some t =>
    obtain ⟨hv, rfl⟩ := (tableOf_eq_some _ _).1 ht
    exact (tableOf_eq_some _ _).2 ⟨(validWordList_map hf he _).trans hv, Vector.toList_map⟩

end

/-! Renaming and the commands that meet a word -/

theorem execTblRd_renamed (i : Index) (s : State W) :
    RenamedOutcome f (execTblRd i s) (execTblRd i (renameState f s)) := by
  refine requireMode_renamed f fun _ => .of_eq ?_
  rw [renameState_emitTbl, renameState_rom, tblRead_map]

section
variable [DecidableEq W] [DecidableEq V] (hf : Function.Injective f)
include hf

theorem execTblLookup_renamed (w : W) (s : State W) :
    RenamedOutcome f (execTblLookup w s) (execTblLookup (f w) (renameState f s)) := by
  refine requireMode_renamed f fun _ => ?_
  rw [renameState_rom, tblFind_map hf]
  cases tblFind s.rom w <;> exact .refl _

theorem execDecWord_renamed (w : W) (s : State W) :
    RenamedOutcome f (execDecWord w s) (execDecWord (f w) (renameState f s)) := by
  refine requireMode_renamed f fun _ => ?_
  rw [renameState_rom, tblFind_map hf]
  cases tblFind s.rom w <;> exact .refl _

variable [Inhabited W] [Inhabited V] (he : f EMPTY = EMPTY)
include he

theorem execTblLoad_renamed (src : List W) (s : State W) :
    RenamedOutcome f (execTblLoad src s) (execTblLoad (src.map f) (renameState f s)) := by
  refine requireMode_renamed f fun _ => ?_
  rw [tableOf_map hf he]
  cases tableOf src with
  | some t => exact .refl _
  | none => exact haltConfigurationError_renamed f s

/-! Every command and every step -/

/-- The five commands that meet no word do the same to both states. -/
theorem execOf_renamed (i : Instr W) (s : State W) :
    RenamedOutcome f (execOf i s) (execOf (renameInstr f i) (renameState f s)) := by
  cases i with
  | tblRd k => exact execTblRd_renamed k s
  | tblLoad src => exact execTblLoad_renamed hf he src s
  | tblLookup w => exact execTblLookup_renamed hf w s
  | decWord w => exact execDecWord_renamed hf w s
  | encPush | encEnd | decPush | decMiss | decEnd =>
    simp only [renameInstr, execOf]
    exact requireMode_renamed f fun _ => .refl _

/-- One step from a state and from the renamed state: the same event is met, and it does the same. -/
theorem stepOf_renamed (s : State W) : RenamedOutcome f (stepOf s) (stepOf (renameState f s)) := by
  unfold stepOf
  match hi : s.input with
  | [] =>
    rw [stepWith_nil hi, stepWith_nil (renameState_input_eq f hi)]
    exact .next (.refl _)
  | ⟨true, c⟩ :: rest =>
    rw [stepWith_reset hi, stepWith_reset (renameState_input_eq f hi)]
    exact .next (resetBlock_renamed f { s with input := rest })
  | ⟨false, none⟩ :: rest =>
    rw [stepWith_idle hi, stepWith_idle (renameState_input_eq f hi)]
    exact .next (.refl _)
  | ⟨false, some c⟩ :: rest =>
    have hd := decode_renameRaw f c
    cases hc : decode c with
    | ok i =>
      rw [hc] at hd
      rw [stepWith_command hi hc, stepWith_command (renameState_input_eq f hi) hd]
      exact execOf_renamed hf he i { s with input := rest }
    | error why =>
      rw [hc] at hd
      rw [stepWith_reserved hi hc, stepWith_reserved (renameState_input_eq f hi) hd]
      exact .refused _

end

end Sys2Proof.Machine
end

section
/-! The statements of the family of spec/00_scope.md. -/

namespace Sys2Proof.Machine

/-- Settles O49, by the commuting square of one step under a renaming of words. -/
theorem wordsAreOpaque : Obligations.WordsAreOpaque := by
  refine ⟨exec_eq_execOf, step_eq_stepOf, ?_⟩
  intro W V _ _ _ _ f hf he s
  have hsq := stepOf_renamed hf he s
  exact ⟨fun _ => hsq.exists_next, fun _ => hsq.eq_refused⟩

/-- Settles O54: acceptance is the mode check, a load follows the validity test, and a lookup in a valid table finds the
one entry equal to the word. -/
theorem everyWordTypeRunsTheSameCommands : Obligations.EveryWordTypeRunsTheSameCommands := by
  intro W _ _ s
  refine ⟨fun i hi => ?acceptance, fun src hm => ⟨fun hv => ?valid, fun hv => ?invalid⟩,
    fun w hm hrom => ⟨fun i hi => ?hit, fun hw => ?miss⟩⟩
  case acceptance =>
    obtain ⟨act, hact⟩ := execOf_eq_requireMode_ready hi
    rw [hact]
    exact ⟨fun hm => ⟨_, requireMode_accepted act hm⟩, requireMode_refused act⟩
  case valid =>
    obtain ⟨rom, ht, hrom⟩ := exists_tableOf_eq_some hv
    exact ⟨rom, hrom, execTblLoad_of_tableOf_eq_some hm ht⟩
  case invalid => exact ⟨_, execTblLoad_of_tableOf_eq_none hm (tableOf_eq_none_of_not_validList hv), rfl⟩
  case hit =>
    have hfind : tblFind s.rom w = some i := (tblFind_eq_some_iff_of_valid (hrom hm) w i).2 hi
    exact ⟨execTblLookup_of_tblFind_eq_some hm hfind, execDecWord_of_tblFind_eq_some hfind⟩
  case miss =>
    have hfind : tblFind s.rom w = none := (tblFind_eq_none s.rom w).2 hw
    exact ⟨execTblLookup_of_tblFind_eq_none hm hfind, execDecWord_of_tblFind_eq_none hfind⟩

/-- Settles O5, by the equation of the step for a command presented alone. -/
theorem stepRunsTheDecodedCommand : Obligations.StepRunsTheDecodedCommand :=
  fun _ _ _ _ hi hd => stepWith_command hi hd

/-- Settles O6, by the equations of the step for an empty input and for an event that asks for nothing. -/
theorem nothingHappensWithoutTheHost : Obligations.NothingHappensWithoutTheHost :=
  ⟨fun _ hi => stepWith_nil hi, fun _ _ hi => stepWith_idle hi⟩

end Sys2Proof.Machine
end

section
/-! Bit strings in groups: what `valueOf` of a bit string is, and that a string that comes in pieces is cut into the
same groups as the whole string, when each piece is put behind the bits left over from the pieces before it. This is
the one fact behind the streams of both units (R14, R140, R160). -/

namespace Sys2Proof.Machine.Ref

theorem valueOf_append (l m : List Bool) : valueOf (l ++ m) = valueOf l * 2 ^ m.length + valueOf m := by
  induction m using List.reverseRecOn with
  | nil => simp [valueOf]
  | append_singleton m b ih =>
    have hsnoc (k : List Bool) : valueOf (k ++ [b]) = 2 * valueOf k + b.toNat := by simp [valueOf]
    rw [← List.append_assoc, hsnoc, hsnoc, ih, List.length_append, List.length_singleton, pow_succ]
    ring

theorem valueOf_lt (l : List Bool) : valueOf l < 2 ^ l.length := by
  induction l with
  | nil => simp [valueOf]
  | cons b l ih =>
    have hb : valueOf [b] ≤ 1 := by cases b <;> decide
    have hhead := Nat.mul_le_mul_right (2 ^ l.length) hb
    rw [← List.singleton_append, valueOf_append, List.length_append, List.length_singleton, Nat.add_comm 1, pow_succ]
    omega

/-- The first bits of a string are a quotient of its value. -/
theorem valueOf_take (l : List Bool) (n : Nat) : valueOf (l.take n) = valueOf l / 2 ^ (l.length - n) := by
  conv_rhs => rw [← List.take_append_drop n l]
  rw [valueOf_append, ← List.length_drop, List.take_append_drop, Nat.mul_comm, Nat.mul_add_div (by positivity),
    Nat.div_eq_of_lt (valueOf_lt _), Nat.add_zero]

/-- The other bits are the remainder. -/
theorem valueOf_drop (l : List Bool) (n : Nat) : valueOf (l.drop n) = valueOf l % 2 ^ (l.length - n) := by
  conv_rhs => rw [← List.take_append_drop n l]
  rw [valueOf_append, ← List.length_drop, List.take_append_drop, Nat.mul_comm, Nat.mul_add_mod,
    Nat.mod_eq_of_lt (valueOf_lt _)]

/-- The first `k` bits of a word, most significant first, write the word less its low bits. -/
theorem valueOf_map_getMsbD {w : Nat} (x : BitVec w) {k : Nat} (hk : k ≤ w) :
    valueOf ((List.range k).map x.getMsbD) = x.toNat / 2 ^ (w - k) := by
  induction k with
  | zero => simp [valueOf, Nat.div_eq_of_lt x.isLt]
  | succ k ih =>
    have hbit : (x.getMsbD k).toNat = x.toNat / 2 ^ (w - (k + 1)) % 2 := by
      rw [BitVec.getMsbD_eq_getLsbD, ← BitVec.testBit_toNat, Nat.testBit_eq_decide_div_mod_eq,
        show w - 1 - k = w - (k + 1) by omega]
      rcases Nat.mod_two_eq_zero_or_one (x.toNat / 2 ^ (w - (k + 1))) with h | h <;>
        simp [h, show k < w by omega]
    rw [List.range_succ, List.map_append, valueOf_append, ih (by omega)]
    have hsplit : x.toNat / 2 ^ (w - k) = x.toNat / 2 ^ (w - (k + 1)) / 2 := by
      rw [Nat.div_div_eq_div_mul, ← pow_succ, show w - (k + 1) + 1 = w - k by omega]
    have hone : valueOf ([k].map x.getMsbD) = (x.getMsbD k).toNat := by simp [valueOf]
    rw [hone, hbit, hsplit, List.length_map, List.length_singleton, pow_one]
    exact Nat.div_add_mod' _ 2

@[simp] theorem length_byteBits (b : Byte) : (byteBits b).length = 8 := by simp [byteBits]

@[simp] theorem length_indexBits (i : Index) : (indexBits i).length = 11 := by simp [indexBits]

@[simp] theorem valueOf_byteBits (b : Byte) : valueOf (byteBits b) = b.toNat := by
  simp [byteBits, valueOf_map_getMsbD]

@[simp] theorem valueOf_indexBits (i : Index) : valueOf (indexBits i) = i.toNat := by
  simp [indexBits, valueOf_map_getMsbD]

@[simp] theorem length_bitsOfBytes (d : List Byte) : (bitsOfBytes d).length = 8 * d.length := by
  simp [bitsOfBytes, List.length_flatMap, Nat.mul_comm]

@[simp] theorem length_bitsOfIndices (x : List Index) : (bitsOfIndices x).length = 11 * x.length := by
  simp [bitsOfIndices, List.length_flatMap, Nat.mul_comm]

@[simp] theorem bitsOfBytes_cons (b : Byte) (d : List Byte) : bitsOfBytes (b :: d) = byteBits b ++ bitsOfBytes d :=
  List.flatMap_cons

@[simp] theorem bitsOfIndices_cons (i : Index) (x : List Index) :
    bitsOfIndices (i :: x) = indexBits i ++ bitsOfIndices x :=
  List.flatMap_cons

/-- Every complete group of `n` bits of the string, as a word. -/
def fullGroups (n : Nat) (bits : List Bool) : List (BitVec n) :=
  (List.range (bits.length / n)).map fun k => BitVec.ofNat n (group n bits k)

/-- The bits behind the last complete group. -/
def leftover (n : Nat) (bits : List Bool) : List Bool := bits.drop (n * (bits.length / n))

theorem rawBytes_eq_fullGroups (x : List Index) : rawBytes x = fullGroups 8 (bitsOfIndices x) := by
  simp [rawBytes, fullGroups]

theorem tailValue_eq_valueOf_leftover (x : List Index) : tailValue x = valueOf (leftover 8 (bitsOfIndices x)) := by
  simp [tailValue, leftover]

@[simp] theorem length_fullGroups (n : Nat) (bits : List Bool) : (fullGroups n bits).length = bits.length / n := by
  simp [fullGroups]

@[simp] theorem length_leftover (n : Nat) (bits : List Bool) : (leftover n bits).length = bits.length % n := by
  rw [leftover, List.length_drop]
  exact Nat.sub_eq_of_eq_add ((Nat.mod_add_div _ _).symm)

theorem fullGroups_of_length_lt {n : Nat} {bits : List Bool} (h : bits.length < n) : fullGroups n bits = [] := by
  simp [fullGroups, Nat.div_eq_of_lt h]

theorem leftover_of_length_lt {n : Nat} {bits : List Bool} (h : bits.length < n) : leftover n bits = bits := by
  simp [leftover, Nat.div_eq_of_lt h]

section
variable {n : Nat} (hn : 0 < n) {bits : List Bool}
include hn

theorem fullGroups_of_le_length (h : n ≤ bits.length) :
    fullGroups n bits = BitVec.ofNat n (valueOf (bits.take n)) :: fullGroups n (bits.drop n) := by
  rw [fullGroups, Nat.div_eq_sub_div hn h, List.range_succ_eq_map, List.map_cons, List.map_map, fullGroups,
    List.length_drop]
  simp [group, Function.comp_def, Nat.mul_add, Nat.add_comm]

theorem leftover_of_le_length (h : n ≤ bits.length) : leftover n bits = leftover n (bits.drop n) := by
  rw [leftover, Nat.div_eq_sub_div hn h, leftover, List.drop_drop, List.length_drop, Nat.mul_add, Nat.mul_one,
    Nat.add_comm]

/-- The groups of a string that comes in two pieces. -/
theorem fullGroups_append_and_leftover_append (l m : List Bool) :
    fullGroups n (l ++ m) = fullGroups n l ++ fullGroups n (leftover n l ++ m) ∧
      leftover n (l ++ m) = leftover n (leftover n l ++ m) := by
  by_cases h : l.length < n
  · simp [fullGroups_of_length_lt h, leftover_of_length_lt h]
  · have hl : n ≤ l.length := Nat.le_of_not_lt h
    have hlm : n ≤ (l ++ m).length := by simp; omega
    have ih := fullGroups_append_and_leftover_append (l.drop n) m
    rw [fullGroups_of_le_length hn hlm, leftover_of_le_length hn hlm, fullGroups_of_le_length hn hl,
      leftover_of_le_length hn hl, List.take_append_of_le_length hl, List.drop_append_of_le_length hl]
    exact ⟨congrArg _ ih.1, ih.2⟩
termination_by l.length
decreasing_by simp; omega

theorem fullGroups_append (l m : List Bool) :
    fullGroups n (l ++ m) = fullGroups n l ++ fullGroups n (leftover n l ++ m) :=
  (fullGroups_append_and_leftover_append hn l m).1

theorem leftover_append (l m : List Bool) : leftover n (l ++ m) = leftover n (leftover n l ++ m) :=
  (fullGroups_append_and_leftover_append hn l m).2

end

end Sys2Proof.Machine.Ref
end

section
/-! What the registers of a unit hold, as a bit string (R22, R25): the operations of Machine/Operands.lean on it, and
the push commands as regrouping of bits (R142, R162). -/

namespace Sys2Proof.Machine

open Ref

/-- The accumulator and the count hold the bit string `l`. -/
structure Buffers (acc : Acc) (cnt : Cnt) (l : List Bool) : Prop where
  length_le : l.length ≤ 18
  cnt_toNat : cnt.toNat = l.length
  acc_toNat : acc.toNat = valueOf l

theorem buffers_nil : Buffers 0#18 0#5 [] := ⟨Nat.zero_le _, rfl, rfl⟩

/-- The registers of a unit between commands hold some bit string (I2 and I5 of R34). -/
theorem exists_buffers {acc : Acc} {cnt : Cnt} (hc : cnt.toNat ≤ 18) (ha : acc.toNat < 2 ^ cnt.toNat) :
    ∃ l, Buffers acc cnt l := by
  refine ⟨(List.range cnt.toNat).map (BitVec.ofNat cnt.toNat acc.toNat).getMsbD, by simpa using hc, by simp, ?_⟩
  rw [valueOf_map_getMsbD _ le_rfl]
  simp [Nat.mod_eq_of_lt ha]

section
variable {acc : Acc} {cnt : Cnt} {l : List Bool} (h : Buffers acc cnt l)
include h

theorem Buffers.acc_lt : acc.toNat < 2 ^ cnt.toNat := by rw [h.acc_toNat, h.cnt_toNat]; exact valueOf_lt l

theorem Buffers.acc_lt_of_length_le {k : Nat} (hl : l.length ≤ k) : acc.toNat < 2 ^ k :=
  h.acc_toNat ▸ (valueOf_lt l).trans_le (Nat.pow_le_pow_right two_pos hl)

/-- R145: a byte enters at the low end. -/
theorem Buffers.appendByte (b : Byte) (hl : l.length ≤ 10) :
    Buffers (appendByte acc b) (cnt + 8#5) (l ++ byteBits b) where
  length_le := by simp; omega
  cnt_toNat := by simp [BitVec.toNat_add, h.cnt_toNat]; omega
  acc_toNat := by
    rw [appendByte_toNat b (h.acc_lt_of_length_le hl), valueOf_append, h.acc_toNat, valueOf_byteBits, length_byteBits]
    norm_num

/-- R167: an index enters at the low end. -/
theorem Buffers.appendIndex (i : Index) (hl : l.length ≤ 7) :
    Buffers (appendIndex acc i) (cnt + 11#5) (l ++ indexBits i) where
  length_le := by simp; omega
  cnt_toNat := by simp [BitVec.toNat_add, h.cnt_toNat]; omega
  acc_toNat := by
    rw [appendIndex_toNat i (h.acc_lt_of_length_le hl), valueOf_append, h.acc_toNat, valueOf_indexBits,
      length_indexBits]
    norm_num

theorem Buffers.toNat_sub {n : Cnt} (hn : n.toNat ≤ l.length) : (cnt - n).toNat = l.length - n.toNat := by
  rw [BitVec.toNat_sub_of_le (by rw [BitVec.le_def, h.cnt_toNat]; exact hn), h.cnt_toNat]

/-- The bits behind the first `n` are kept (R142, R162). -/
theorem Buffers.keepLow {n : Cnt} (hn : n.toNat ≤ l.length) :
    Buffers (keepLow acc (cnt - n)) (cnt - n) (l.drop n.toNat) where
  length_le := by simp; have := h.length_le; omega
  cnt_toNat := by rw [h.toNat_sub hn, List.length_drop]
  acc_toNat := by
    rw [keepLow_toNat _ (by rw [h.toNat_sub hn]; have := h.length_le; omega), h.toNat_sub hn, h.acc_toNat,
      valueOf_drop]

/-- The top 11 bits are the first 11 of the string (R142). -/
theorem Buffers.topIndex (hl : 11 ≤ l.length) :
    Machine.topIndex acc (cnt - 11#5) = BitVec.ofNat 11 (valueOf (l.take 11)) := by
  apply BitVec.eq_of_toNat_eq
  rw [topIndex_toNat, h.toNat_sub (n := 11#5) hl, h.acc_toNat, BitVec.toNat_ofNat, valueOf_take]
  rfl

/-- The top 8 bits are the first 8 of the string (R162). -/
theorem Buffers.topByte (hl : 8 ≤ l.length) :
    Machine.topByte acc (cnt - 8#5) = BitVec.ofNat 8 (valueOf (l.take 8)) := by
  apply BitVec.eq_of_toNat_eq
  rw [topByte_toNat, h.toNat_sub (n := 8#5) hl, h.acc_toNat, BitVec.toNat_ofNat, valueOf_take]
  rfl

theorem Buffers.le_cnt_iff {n : Cnt} : n ≤ cnt ↔ n.toNat ≤ l.length := by rw [BitVec.le_def, h.cnt_toNat]

end

/-! The encoder -/

theorem EncUnit.Inv.exists_buffers {e : EncUnit} (h : e.Inv) : ∃ l, Buffers e.acc e.cnt l ∧ l.length ≤ 10 := by
  obtain ⟨hcnt, hacc, -⟩ := h
  obtain ⟨l, hl⟩ := Machine.exists_buffers (hcnt.trans (by norm_num)) hacc
  exact ⟨l, hl, hl.cnt_toNat ▸ hcnt⟩

/-- R142 on bit strings: the byte's bits are put behind the bits held, a complete group of 11 goes out and the rest is
held. -/
theorem encPushUnit_buffers (b : Byte) {e : EncUnit} {l : List Bool} (h : Buffers e.acc e.cnt l)
    (hl : l.length ≤ 10) :
    Buffers (encPushUnit b e).1.acc (encPushUnit b e).1.cnt (leftover 11 (l ++ byteBits b)) ∧
      (encPushUnit b e).1.any = true ∧
      (encPushUnit b e).2 = (fullGroups 11 (l ++ byteBits b)).map .W := by
  have happ := h.appendByte b hl
  have hlen : (l ++ byteBits b).length = l.length + 8 := by simp
  have hword : 11#5 ≤ e.cnt + 8#5 ↔ 11 ≤ (l ++ byteBits b).length := happ.le_cnt_iff
  by_cases hc : 11 ≤ (l ++ byteBits b).length
  · have hrest : ((l ++ byteBits b).drop 11).length < 11 := by rw [List.length_drop]; omega
    simp only [encPushUnit, if_pos (hword.2 hc)]
    rw [leftover_of_le_length (by norm_num) hc, leftover_of_length_lt hrest,
      fullGroups_of_le_length (by norm_num) hc, fullGroups_of_length_lt hrest, happ.topIndex hc]
    exact ⟨happ.keepLow hc, trivial, rfl⟩
  · rw [encPushUnit, if_neg (mt hword.1 hc), leftover_of_length_lt (by omega), fullGroups_of_length_lt (by omega)]
    exact ⟨happ, rfl, rfl⟩

/-- I1, I2 and I3 are kept by a push. -/
theorem encPushUnit_inv (b : Byte) {e : EncUnit} (h : e.Inv) : (encPushUnit b e).1.Inv := by
  obtain ⟨l, hbuf, hl⟩ := h.exists_buffers
  obtain ⟨hbuf', hany, -⟩ := encPushUnit_buffers b hbuf hl
  refine ⟨?_, hbuf'.acc_lt, fun hfalse => absurd (hany.symm.trans hfalse) (by decide)⟩
  rw [hbuf'.cnt_toNat, length_leftover]
  omega

/-! The decoder -/

/-- The byte held, if any (R28, R29). -/
def DecUnit.held (d : DecUnit) : List Byte := if d.hv then [d.hold] else []

theorem DecUnit.held_of_hv {d : DecUnit} (h : d.hv = true) : d.held = [d.hold] := by simp [held, h]

theorem DecUnit.held_of_not_hv {d : DecUnit} (h : d.hv = false) : d.held = [] := by simp [held, h]

theorem heldBeats_eq_map_held (d : DecUnit) : heldBeats d = d.held.map .B := by
  unfold heldBeats DecUnit.held; split <;> rfl

theorem DecUnit.Inv.exists_buffers {d : DecUnit} (h : d.Inv) : ∃ l, Buffers d.acc d.cnt l ∧ l.length ≤ 7 := by
  obtain ⟨hcnt, hacc, -⟩ := h
  obtain ⟨l, hl⟩ := Machine.exists_buffers (hcnt.trans (by norm_num)) hacc
  exact ⟨l, hl, hl.cnt_toNat ▸ hcnt⟩

/-- R162's loop on bit strings: every complete byte is taken from the front; the byte held before and these bytes, all
but the newest of them, go out. -/
theorem decDrain_buffers (n : Nat) {d : DecUnit} {l : List Bool} (h : Buffers d.acc d.cnt l)
    (hn : l.length < 8 * (n + 1)) :
    Buffers (decDrain n d).1.acc (decDrain n d).1.cnt (leftover 8 l) ∧
      ∃ out : List Byte, (decDrain n d).2 = out.map .B ∧
        out ++ (decDrain n d).1.held = d.held ++ fullGroups 8 l := by
  induction n generalizing d l with
  | zero =>
    rw [leftover_of_length_lt (by omega), fullGroups_of_length_lt (by omega)]
    exact ⟨h, [], rfl, by simp [decDrain]⟩
  | succ n ih =>
    have hbyte : 8#5 ≤ d.cnt ↔ 8 ≤ l.length := h.le_cnt_iff
    by_cases hc : 8 ≤ l.length
    · simp only [decDrain, if_pos (hbyte.2 hc)]
      have hpass : Buffers (decPass d).1.acc (decPass d).1.cnt (l.drop 8) := h.keepLow hc
      have hheld : (decPass d).1.held = [BitVec.ofNat 8 (valueOf (l.take 8))] := by
        rw [DecUnit.held_of_hv rfl, ← h.topByte hc]; rfl
      obtain ⟨hbuf, out, hout, hE⟩ := ih hpass (by rw [List.length_drop]; omega)
      rw [leftover_of_le_length (by norm_num) hc, fullGroups_of_le_length (by norm_num) hc]
      refine ⟨hbuf, d.held ++ out, ?_, ?_⟩
      · rw [hout, List.map_append, ← heldBeats_eq_map_held]; rfl
      · rw [List.append_assoc, hE, hheld, List.singleton_append]
    · rw [decDrain, if_neg (mt hbyte.1 hc), leftover_of_length_lt (by omega), fullGroups_of_length_lt (by omega)]
      exact ⟨h, [], rfl, by simp⟩

/-- R162 on bit strings. -/
theorem decPushUnit_buffers (i : Index) {d : DecUnit} {l : List Bool} (h : Buffers d.acc d.cnt l)
    (hl : l.length ≤ 7) :
    Buffers (decPushUnit i d).1.acc (decPushUnit i d).1.cnt (leftover 8 (l ++ indexBits i)) ∧
      ∃ out : List Byte, (decPushUnit i d).2 = out.map .B ∧
        out ++ (decPushUnit i d).1.held = d.held ++ fullGroups 8 (l ++ indexBits i) :=
  decDrain_buffers 3 (d := ⟨Machine.appendIndex d.acc i, d.cnt + 11#5, d.hold, d.hv⟩) (h.appendIndex i hl)
    (by simp; omega)

/-- A push always leaves a byte held: eleven more bits are a complete byte at least (R162). -/
theorem decPushUnit_hv (i : Index) {d : DecUnit} (h : d.cnt.toNat ≤ 7) : (decPushUnit i d).1.hv = true := by
  rcases Nat.lt_or_ge 4 d.cnt.toNat with hc | hc
  · rw [decPushUnit_twoPasses i hc h]
  · rw [decPushUnit_onePass i hc]

/-- I4, I5 and I6 are kept by a push. -/
theorem decPushUnit_inv (i : Index) {d : DecUnit} (h : d.Inv) : (decPushUnit i d).1.Inv := by
  obtain ⟨l, hbuf, hl⟩ := h.exists_buffers
  obtain ⟨hbuf', -⟩ := decPushUnit_buffers i hbuf hl
  have hcnt := decPushUnit_cnt_lt i d
  exact ⟨by omega, hbuf'.acc_lt, fun hfalse => absurd ((decPushUnit_hv i h.1).symm.trans hfalse) (by decide)⟩

end Sys2Proof.Machine
end

section
/-! The commands by unit (R35): an encoder command is a function of the encoder's registers, a decoder command a push of
some index or `DEC.END`. -/

namespace Sys2Proof.Machine

variable {W : Type}

/-- A function of the encoder's registers alone, performed on the state. -/
def State.actEnc (f : EncUnit → EncUnit × List EncBeat) (s : State W) : State W :=
  (s.setEnc (f s.enc).1).emitEnc (f s.enc).2

/-- What `DEC.END` does to the state (R165). -/
def decEndBody (s : State W) : State W :=
  ((s.setDec (.init (Config.freeHold s.freeCtr))).emitDec (decEndBeats s.dec)).drawn

theorem exec_decEnd_eq (s : State) : exec .decEnd s = requireMode .ready s decEndBody := rfl

theorem exec_decPush_eq (k : Index) (s : State) : exec (.decPush k) s = requireMode .ready s (decPushBody k) := rfl

/-- Every encoder command is such a function behind the mode check. -/
theorem exec_encCommand {i : Instr} (h : isEncCommand i = true) :
    ∃ f, ∀ s, exec i s = requireMode .ready s (State.actEnc f) := by
  cases i with
  | encPush b => exact ⟨encPushUnit b, fun _ => rfl⟩
  | encEnd => exact ⟨fun e => (.init, encEndBeats e), fun _ => rfl⟩
  | decPush | decMiss | decEnd | tblRd | tblLoad | tblLookup | decWord => nomatch h

/-- `DEC.WORD` is a push of `sub(w)` (R161, R164). -/
theorem execDecWord_eq_execDecPush [DecidableEq W] (w : W) (s : State W) :
    execDecWord w s = execDecPush (tblSub s.rom w) s := by
  unfold tblSub
  cases hfind : tblFind s.rom w with
  | some i => exact execDecWord_of_tblFind_eq_some hfind
  | none => exact execDecWord_of_tblFind_eq_none hfind

/-- A decoder command is `DEC.END` or a push, whose index depends on the table only for `DEC.WORD`. -/
theorem exec_decCommand {i : Instr} (h : isDecCommand i = true) :
    i = .decEnd ∨ ∃ k : Table → Index, (∀ s, exec i s = exec (.decPush (k s.rom)) s) ∧
      ∀ r r', (∀ w, i = .decWord w → r = r') → k r = k r' := by
  cases i with
  | decEnd => exact .inl rfl
  | decPush k => exact .inr ⟨fun _ => k, fun _ => rfl, fun _ _ _ => rfl⟩
  | decMiss => exact .inr ⟨fun _ => MISS_IDX, fun _ => rfl, fun _ _ _ => rfl⟩
  | decWord w => exact .inr ⟨fun rom => tblSub rom w, execDecWord_eq_execDecPush w, fun _ _ hr => by rw [hr w rfl]⟩
  | encPush | encEnd | tblRd | tblLoad | tblLookup => nomatch h

theorem exec_decPush_of_ready {s : State} (hm : s.mode = .ready) (k : Index) :
    exec (.decPush k) s = .next (decPushBody k s) :=
  requireMode_accepted _ hm

theorem exec_decEnd_of_ready {s : State} (hm : s.mode = .ready) : exec .decEnd s = .next (decEndBody s) :=
  (exec_decEnd_eq s).trans (requireMode_accepted _ hm)

/-- What an accepted encoder command does. -/
theorem exec_encCommand_next {i : Instr} {s t : State} (h : isEncCommand i = true) (ht : exec i s = .next t) :
    s.mode = .ready ∧ ∃ f, t = s.actEnc f := by
  obtain ⟨f, hf⟩ := exec_encCommand h
  obtain ⟨hm, rfl⟩ := requireMode_next.1 ((hf s).symm.trans ht)
  exact ⟨hm, f, rfl⟩

/-- What an accepted decoder command does. -/
theorem exec_decCommand_next {i : Instr} {s t : State} (h : isDecCommand i = true) (ht : exec i s = .next t) :
    s.mode = .ready ∧ (t = decEndBody s ∨ ∃ k, t = decPushBody k s) := by
  obtain rfl | ⟨k, hk, -⟩ := exec_decCommand h
  · rw [exec_decEnd_eq] at ht
    obtain ⟨hm, rfl⟩ := requireMode_next.1 ht
    exact ⟨hm, .inl rfl⟩
  · rw [hk, exec_decPush_eq] at ht
    obtain ⟨hm, rfl⟩ := requireMode_next.1 ht
    exact ⟨hm, .inr ⟨_, rfl⟩⟩

/-- R196: a command but `TBL.LOAD` is accepted in `READY` alone. -/
theorem exec_eq_requireMode_ready {i : Instr} (hi : ∀ src, i ≠ .tblLoad src) :
    ∃ act, ∀ s, exec i s = requireMode .ready s act := by
  obtain ⟨act, hact⟩ := execOf_eq_requireMode_ready (i := i) (by
    cases i with
    | tblLoad src => exact absurd rfl (hi src)
    | _ => nofun)
  exact ⟨act, fun s => (exec_eq_execOf i s).trans (hact s)⟩

end Sys2Proof.Machine
end

section
/-! Single steps and runs of the commands of a trace. -/

namespace Sys2Proof.Machine

open Ref

/-- Encoding a command and decoding it gives it back (R93). -/
theorem decode_encode {W : Type} (i : Instr W) : decode (encode i) = .ok i := by
  cases i with
  | encPush b =>
    obtain ⟨opd, hopd⟩ : ∃ opd : BitVec 11, opd = 0b000#3 ++ b := ⟨_, rfl⟩
    have hword : (0b000#3 ++ 0b000#3 ++ b : BitVec 14) = 0b000#3 ++ opd := hopd ▸ BitVec.append_assoc
    have hhigh : opdHigh opd = 0#3 := hopd ▸ BitVec.extractLsb'_append_eq_left
    have hlow : opdByte opd = b := hopd ▸ BitVec.extractLsb'_append_eq_right
    simp only [encode, decode, decodeC, hword, opcOf_append, opdOf_append, hhigh, hlow]
    rfl
  | encEnd | decMiss | decEnd | tblLoad | tblLookup | decWord => rfl
  | decPush i | tblRd i =>
    simp only [encode, decode, decodeC, opcOf_append, opdOf_append]
    rfl

/-- The step that meets a command of a trace. -/
theorem step_command {s : State} {i : Instr} {rest : List HostEvent} (h : s.input = Trace.command i :: rest) :
    step s = exec i { s with input := rest } :=
  stepWith_command h (decode_encode i)

theorem run_succ_of_step {s t : State} (h : step s = .next t) (n : Nat) :
    Host.Core.run Sys2Proof.core (n + 1) s = Host.Core.run Sys2Proof.core n t := by
  have hcore : Sys2Proof.core.step s = .next t := h
  simp only [Host.Core.run, hcore]

theorem step_encPush {s : State} {b : Byte} {rest : List HostEvent} (hm : s.mode = .ready)
    (hi : s.input = Trace.command (.encPush b) :: rest) :
    step s = .next
      { s with enc := (encPushUnit b s.enc).1, encOut := s.encOut ++ (encPushUnit b s.enc).2, input := rest } :=
  (step_command hi).trans (execEncPush_next.2 ⟨hm, rfl⟩)

theorem step_reset {s : State} {c : Option RawCommand} {rest : List HostEvent} (h : s.input = ⟨true, c⟩ :: rest) :
    step s = .next (resetBlock { s with input := rest }) :=
  stepWith_reset h

theorem step_tblLoad {s : State} {rom : Table} {rest : List HostEvent} (hm : s.mode = .unconfigured)
    (hv : ValidList rom.toList) (hi : s.input = Trace.command (.tblLoad rom.toList) :: rest) :
    step s = .next { s with mode := .ready, rom := rom, input := rest } := by
  have ht : tableOf rom.toList = some rom := (tableOf_eq_some _ _).2 ⟨(validList_iff_validWordList _).1 hv, rfl⟩
  exact (step_command hi).trans (execTblLoad_of_tableOf_eq_some hm ht)

/-- The pushes of a byte sequence, from an encoder that holds the bit string `l`: the bits of the whole sequence behind
`l` are cut into groups of 11, the complete ones go out and the others are held. -/
theorem run_encPushes (d : List Byte) {s : State} {l : List Bool} {rest : List HostEvent} (hm : s.mode = .ready)
    (hbuf : Buffers s.enc.acc s.enc.cnt l) (hl : l.length ≤ 10)
    (hi : s.input = d.map (fun b => Trace.command (.encPush b)) ++ rest) :
    ∃ e : EncUnit, Host.Core.run Sys2Proof.core d.length s = .next
        { s with
          enc := e, input := rest
          encOut := s.encOut ++ (fullGroups 11 (l ++ bitsOfBytes d)).map .W } ∧
      Buffers e.acc e.cnt (leftover 11 (l ++ bitsOfBytes d)) ∧ e.any = (s.enc.any || !d.isEmpty) := by
  induction d generalizing s l with
  | nil =>
    refine ⟨s.enc, ?_, ?_, by simp⟩
    · simp only [bitsOfBytes, List.flatMap_nil, List.append_nil, fullGroups_of_length_lt (show l.length < 11 by omega),
        List.map_nil]
      simp only [List.map_nil, List.nil_append] at hi
      rw [← hi]
      rfl
    · simpa [bitsOfBytes, leftover_of_length_lt (show l.length < 11 by omega)] using hbuf
  | cons b d ih =>
    obtain ⟨hbuf', hany, hout⟩ := encPushUnit_buffers b hbuf hl
    have hstep := step_encPush hm hi
    obtain ⟨e, hrun, hbuf_e, hany_e⟩ := ih (s := { s with
        enc := (encPushUnit b s.enc).1, encOut := s.encOut ++ (encPushUnit b s.enc).2
        input := d.map (fun b => Trace.command (.encPush b)) ++ rest })
      hm hbuf' (by rw [length_leftover]; omega) rfl
    rw [bitsOfBytes_cons, ← List.append_assoc]
    refine ⟨e, (run_succ_of_step hstep _).trans (hrun.trans ?_), ?_, by simp [hany_e, hany]⟩
    · rw [fullGroups_append (by norm_num) (l ++ byteBits b), List.map_append, ← hout, List.append_assoc]
    · rwa [leftover_append (by norm_num)]

theorem step_decPush {s : State} {i : Index} {rest : List HostEvent} (hm : s.mode = .ready)
    (hi : s.input = Trace.command (.decPush i) :: rest) :
    step s = .next
      { s with dec := (decPushUnit i s.dec).1, decOut := s.decOut ++ (decPushUnit i s.dec).2, input := rest } :=
  (step_command hi).trans (execDecPush_next.2 ⟨hm, rfl⟩)

/-- The pushes of an index sequence, from a decoder that holds the bit string `l`: every complete byte of the whole
sequence behind `l` is taken; the byte held before and these bytes, all but the newest of them, go out. -/
theorem run_decPushes (x : List Index) {s : State} {l : List Bool} {rest : List HostEvent} (hm : s.mode = .ready)
    (hbuf : Buffers s.dec.acc s.dec.cnt l) (hl : l.length ≤ 7)
    (hi : s.input = x.map (fun i => Trace.command (.decPush i)) ++ rest) :
    ∃ (d : DecUnit) (out : List Byte), Host.Core.run Sys2Proof.core x.length s = .next
        { s with dec := d, decOut := s.decOut ++ out.map .B, input := rest } ∧
      Buffers d.acc d.cnt (leftover 8 (l ++ bitsOfIndices x)) ∧ d.hv = (s.dec.hv || !x.isEmpty) ∧
      out ++ d.held = s.dec.held ++ fullGroups 8 (l ++ bitsOfIndices x) := by
  induction x generalizing s l with
  | nil =>
    have hshort : l.length < 8 := by omega
    refine ⟨s.dec, [], ?_, ?_, by simp, by simp [bitsOfIndices, fullGroups_of_length_lt hshort]⟩
    · simp only [List.map_nil, List.nil_append] at hi
      simp only [List.map_nil, List.append_nil, ← hi]
      rfl
    · simpa [bitsOfIndices, leftover_of_length_lt hshort] using hbuf
  | cons i x ih =>
    obtain ⟨hbuf', out, hout, hE⟩ := decPushUnit_buffers i hbuf hl
    have hhv : (decPushUnit i s.dec).1.hv = true := decPushUnit_hv i (hbuf.cnt_toNat ▸ hl)
    have hstep := step_decPush hm hi
    obtain ⟨d, out', hrun, hbuf_d, hhv_d, hE_d⟩ := ih (s := { s with
        dec := (decPushUnit i s.dec).1, decOut := s.decOut ++ (decPushUnit i s.dec).2
        input := x.map (fun i => Trace.command (.decPush i)) ++ rest })
      hm hbuf' (by rw [length_leftover]; omega) rfl
    rw [bitsOfIndices_cons, ← List.append_assoc]
    refine ⟨d, out ++ out', (run_succ_of_step hstep _).trans (hrun.trans ?_), ?_, by simp [hhv_d, hhv], ?_⟩
    · rw [hout, List.map_append, List.append_assoc]
    · rwa [leftover_append (by norm_num)]
    · rw [List.append_assoc, hE_d, ← List.append_assoc, hE, fullGroups_append (by norm_num) (l ++ indexBits i),
        List.append_assoc]

end Sys2Proof.Machine
end

section
/-! The ghost sequence `E` (R37): what a push, `DEC.END` and `RESET` make of it. -/

namespace Sys2Proof.Machine

open Ref

theorem emitted_eq (s : State) : emitted s = sentBytes s ++ s.dec.held := rfl

theorem bytesSinceEom_append_bytes (bs : List DecBeat) (ys : List Byte) :
    bytesSinceEom (bs ++ ys.map .B) = bytesSinceEom bs ++ ys := by
  induction ys using List.reverseRecOn with
  | nil => simp
  | append_singleton ys y ih =>
    have hsnoc (cs : List DecBeat) : bytesSinceEom (cs ++ [.B y]) = bytesSinceEom cs ++ [y] := by
      simp [bytesSinceEom]
    rw [List.map_append, List.map_singleton, ← List.append_assoc, hsnoc, ih, List.append_assoc]

/-- Behind an `EOM` no byte is out, wherever the mark of the last `RESET` stands. -/
theorem bytesSinceEom_drop_eom (bs : List DecBeat) (m : Nat) : bytesSinceEom ((bs ++ [DecBeat.EOM]).drop m) = [] := by
  rcases Nat.lt_or_ge bs.length m with h | h
  · rw [List.drop_of_length_le (by simpa using h)]; rfl
  · rw [List.drop_append_of_le_length h, bytesSinceEom, List.foldl_append]; rfl

theorem sentBytes_of_decOut_append {s t : State} {out : List Byte} (hmark : s.decOutAtReset ≤ s.decOut.length)
    (hreset : t.decOutAtReset = s.decOutAtReset) (hout : t.decOut = s.decOut ++ out.map .B) :
    sentBytes t = sentBytes s ++ out := by
  rw [sentBytes, hout, hreset, List.drop_append_of_le_length hmark, bytesSinceEom_append_bytes, sentBytes]

/-- `E` grows by what the bytes put out and the byte held make more than the byte held before (R37). -/
theorem emitted_of_decOut_append {s t : State} {out ys : List Byte} (hmark : s.decOutAtReset ≤ s.decOut.length)
    (hreset : t.decOutAtReset = s.decOutAtReset) (hout : t.decOut = s.decOut ++ out.map .B)
    (hheld : out ++ t.dec.held = s.dec.held ++ ys) : emitted t = emitted s ++ ys := by
  rw [emitted_eq, emitted_eq, sentBytes_of_decOut_append hmark hreset hout, List.append_assoc, hheld, List.append_assoc]

/-- The byte held is the last of `E`. -/
theorem getLast?_emitted {s : State} (h : s.dec.hv = true) : (emitted s).getLast? = some s.dec.hold := by
  rw [emitted_eq, DecUnit.held_of_hv h, List.getLast?_concat]

theorem sentBytes_resetBlock (s : State) : sentBytes (resetBlock s) = [] := by
  simp only [sentBytes, resetBlock_decOut, resetBlock_decOutAtReset, List.drop_length]
  rfl

/-- The bytes `DEC.END` puts out: the byte held, unless it is stripped (R165). -/
def DecUnit.released (d : DecUnit) : List Byte := if d.strips then [] else d.held

theorem decEndBeats_eq_map_released (d : DecUnit) : decEndBeats d = d.released.map .B ++ [.EOM] := by
  unfold decEndBeats DecUnit.released
  split
  · rfl
  · rw [heldBeats_eq_map_held]

theorem sentBytes_decEndBody (s : State) : sentBytes (decEndBody s) = [] := by
  have hout : (decEndBody s).decOut = s.decOut ++ s.dec.released.map .B ++ [.EOM] := by
    rw [List.append_assoc, ← decEndBeats_eq_map_released]
    rfl
  rw [sentBytes, hout, bytesSinceEom_drop_eom]

theorem emitted_resetBlock (s : State) : emitted (resetBlock s) = [] := by
  rw [emitted_eq, sentBytes_resetBlock, DecUnit.held_of_not_hv (by simp)]
  rfl

theorem emitted_decEndBody (s : State) : emitted (decEndBody s) = [] := by
  rw [emitted_eq, sentBytes_decEndBody, DecUnit.held_of_not_hv rfl]
  rfl

theorem DecUnit.strips_iff (d : DecUnit) : d.strips = true ↔ d.acc.toNat = 0 ∧ d.hold.toNat = 128 := by
  simp [strips, STRIP_BYTE, ← BitVec.toNat_inj]

/-- What is out of a message after `DEC.END`: `E`, less its last byte when that was stripped (R37, R165). -/
theorem sentBytes_append_released (s : State) : sentBytes s ++ s.dec.released =
    if s.dec.hv = true ∧ s.dec.acc.toNat = 0 ∧ s.dec.hold.toNat = 128 then (emitted s).dropLast else emitted s := by
  simp only [← DecUnit.strips_iff, emitted_eq, DecUnit.released]
  cases hhv : s.dec.hv with
  | false => simp [DecUnit.held_of_not_hv hhv]
  | true => cases s.dec.strips <;> simp [DecUnit.held_of_hv hhv]

/-- A push makes `E` longer at its end (R162). -/
theorem decPushBody_emitted {s : State} (h : s.dec.Inv) (hmark : s.decOutAtReset ≤ s.decOut.length) (k : Index) :
    ∃ ys, ys ≠ [] ∧ emitted (decPushBody k s) = emitted s ++ ys := by
  obtain ⟨l, hbuf, hl⟩ := h.exists_buffers
  obtain ⟨-, out, hout, hheld⟩ := decPushUnit_buffers k hbuf hl
  refine ⟨fullGroups 8 (l ++ indexBits k), List.ne_nil_of_length_pos ?_,
    emitted_of_decOut_append hmark rfl (congrArg _ hout) hheld⟩
  rw [length_fullGroups, List.length_append, length_indexBits]
  omega

/-- The pushes of a message, from a decoder in its initial state with no byte of the message out: `E` is the list of
complete bytes of the indices pushed (R37). -/
theorem run_decPushes_emitted (x : List Index) {s : State} {rest : List HostEvent} (hm : s.mode = .ready)
    (hinit : s.dec.Initial) (hmark : s.decOutAtReset ≤ s.decOut.length) (hsent : sentBytes s = [])
    (hi : s.input = x.map (fun i => Trace.command (.decPush i)) ++ rest) :
    ∃ t : State, Host.Core.run Sys2Proof.core x.length s = .next t ∧
      t = { s with dec := t.dec, decOut := t.decOut, input := rest } ∧
      (∃ out : List Byte, t.decOut = s.decOut ++ out.map .B) ∧ emitted t = rawBytes x ∧
      Buffers t.dec.acc t.dec.cnt (leftover 8 (bitsOfIndices x)) ∧ t.dec.hv = !x.isEmpty := by
  obtain ⟨hacc, hcnt, hhv⟩ := hinit
  have hbuf : Buffers s.dec.acc s.dec.cnt [] := hacc ▸ hcnt ▸ buffers_nil
  obtain ⟨d, out, hrun, hbuf', hhv', hheld⟩ := run_decPushes x hm hbuf (Nat.zero_le _) hi
  refine ⟨_, hrun, rfl, ⟨out, rfl⟩, ?_, hbuf', by rw [hhv', hhv, Bool.false_or]⟩
  have hE := emitted_of_decOut_append (s := s)
    (t := { s with dec := d, decOut := s.decOut ++ out.map .B, input := rest }) hmark rfl rfl hheld
  rwa [emitted_eq s, hsent, DecUnit.held_of_not_hv hhv, List.nil_append, List.nil_append, List.nil_append,
    ← rawBytes_eq_fullGroups] at hE

end Sys2Proof.Machine
end

section
/-! Every command and `RESET` keep the invariant (R34). -/

namespace Sys2Proof.Machine

open Ref

theorem State.Inv.actEnc {s : State} (h : s.Inv) (hm : s.mode = .ready) {f : EncUnit → EncUnit × List EncBeat}
    (hf : (f s.enc).1.Inv) : (s.actEnc f).Inv :=
  ⟨hf, h.dec, h.rom, fun hne => absurd hm hne, h.mark, h.sent⟩

theorem EncUnit.init_inv : EncUnit.init.Inv := by decide

theorem DecUnit.init_inv (b : Byte) : (DecUnit.init b).Inv := ⟨Nat.zero_le 7, Nat.one_pos, fun _ => ⟨rfl, rfl⟩⟩

theorem decPushBody_inv {s : State} (h : s.Inv) (hm : s.mode = .ready) (k : Index) : (decPushBody k s).Inv where
  enc := h.enc
  dec := decPushUnit_inv k h.dec
  rom := h.rom
  idle hne := absurd hm hne
  mark := h.mark.trans (by simp [decPushBody])
  sent hhv := absurd ((decPushUnit_hv k h.dec.1).symm.trans hhv) (by decide)

theorem decEndBody_inv {s : State} (h : s.Inv) (hm : s.mode = .ready) : (decEndBody s).Inv where
  enc := h.enc
  dec := DecUnit.init_inv _
  rom := h.rom
  idle hne := absurd hm hne
  mark := h.mark.trans (by simp [decEndBody])
  sent _ := sentBytes_decEndBody s

theorem resetBlock_inv (s : State) : (resetBlock s).Inv where
  enc := EncUnit.init_inv
  dec := DecUnit.init_inv _
  rom := nofun
  idle _ := ⟨rfl, rfl, rfl, rfl⟩
  mark := Nat.le_refl _
  sent _ := sentBytes_resetBlock s

theorem execTblLoad_inv {src : List WORD} {s t : State} (h : s.Inv) (ht : execTblLoad src s = .next t) : t.Inv := by
  have hrom : t.RomWf := execTblLoad_romWf ht
  obtain ⟨hm, ⟨rom, -, rfl⟩ | ⟨-, rfl⟩⟩ := execTblLoad_next ht
  · exact ⟨h.enc, h.dec, hrom, fun hne => absurd rfl hne, h.mark, h.sent⟩
  · exact ⟨h.enc, h.dec, hrom, fun _ => h.idle (by simp [hm]), h.mark, h.sent⟩

/-- Emitting on `LKP_OUT` or `TBL_OUT` and taking an event from the input touch nothing the invariant speaks of. -/
theorem State.Inv.of_lkpOut_tblOut_input {s : State} (h : s.Inv) (l : List LkpBeat) (w : List WORD)
    (q : List HostEvent) : ({ s with lkpOut := l, tblOut := w, input := q } : State).Inv :=
  ⟨h.enc, h.dec, h.rom, h.idle, h.mark, h.sent⟩

/-- Every command that is accepted keeps the invariant. -/
theorem exec_keeps_inv {i : Instr} {s t : State} (h : s.Inv) (ht : exec i s = .next t) : t.Inv := by
  cases i with
  | encPush b =>
    obtain ⟨hm, rfl⟩ := execEncPush_next.1 ht
    exact h.actEnc (f := encPushUnit b) hm (encPushUnit_inv b h.enc)
  | encEnd =>
    obtain ⟨hm, rfl⟩ := execEncEnd_next.1 ht
    exact h.actEnc (f := fun e => (.init, encEndBeats e)) hm EncUnit.init_inv
  | decPush | decMiss | decWord | decEnd =>
    obtain ⟨hm, rfl | ⟨k, rfl⟩⟩ := exec_decCommand_next rfl ht
    · exact decEndBody_inv h hm
    · exact decPushBody_inv h hm k
  | tblRd k =>
    obtain ⟨-, rfl⟩ := execTblRd_next.1 ht
    exact h.of_lkpOut_tblOut_input _ _ _
  | tblLookup w =>
    obtain ⟨-, rfl⟩ := execTblLookup_next.1 ht
    exact h.of_lkpOut_tblOut_input _ _ _
  | tblLoad src => exact execTblLoad_inv h ht

end Sys2Proof.Machine
end

section
/-! Two states that differ in unspecified values alone (U1, U2) do the same: every operation keeps the agreement. -/

namespace Sys2Proof.Machine

variable {W : Type}

/-- Two decoders agree on all but the byte in `DEC.HOLD` while it is unspecified (U1). -/
structure DecUnit.Agrees (d d' : DecUnit) : Prop where
  acc : d.acc = d'.acc
  cnt : d.cnt = d'.cnt
  hv : d.hv = d'.hv
  hold : d.hv = true → d.hold = d'.hold

theorem DecUnit.Agrees.heldBeats_eq {d d' : DecUnit} (h : d.Agrees d') : heldBeats d = heldBeats d' := by
  unfold heldBeats
  rw [← h.hv]
  split <;> rename_i hhv
  · rw [h.hold hhv]
  · rfl

/-- The loop of `DEC.PUSH` hands `DEC.HOLD` out only while it holds a byte. -/
theorem DecUnit.Agrees.decDrain {d d' : DecUnit} (h : d.Agrees d') (n : Nat) :
    (decDrain n d).1.Agrees (decDrain n d').1 ∧ (decDrain n d).2 = (decDrain n d').2 := by
  induction n generalizing d d' with
  | zero => exact ⟨h, rfl⟩
  | succ n ih =>
    have hpass : (decPass d).1.Agrees (decPass d').1 := by
      simp only [decPass, h.acc, h.cnt]
      exact ⟨rfl, rfl, rfl, fun _ => rfl⟩
    obtain ⟨hunit, hbeats⟩ := ih hpass
    simp only [Machine.decDrain, ← h.cnt]
    split
    · exact ⟨hunit, congrArg₂ (· ++ ·) h.heldBeats_eq hbeats⟩
    · exact ⟨h, rfl⟩

theorem DecUnit.Agrees.decPushUnit {d d' : DecUnit} (h : d.Agrees d') (i : Index) :
    (decPushUnit i d).1.Agrees (decPushUnit i d').1 ∧ (decPushUnit i d).2 = (decPushUnit i d').2 := by
  unfold Machine.decPushUnit
  rw [← h.acc, ← h.cnt]
  have hstart (acc : Acc) (cnt : Cnt) : DecUnit.Agrees ⟨acc, cnt, d.hold, d.hv⟩ ⟨acc, cnt, d'.hold, d'.hv⟩ :=
    ⟨rfl, rfl, h.hv, h.hold⟩
  exact (hstart _ _).decDrain 3

/-- `DEC.END` looks at `DEC.HOLD` for the strip too, which changes nothing while no byte is held (R165). -/
theorem DecUnit.Agrees.decEndBeats_eq {d d' : DecUnit} (h : d.Agrees d') : decEndBeats d = decEndBeats d' := by
  cases hhv : d.hv with
  | false => rw [decEndBeats_empty hhv, decEndBeats_empty (h.hv ▸ hhv)]
  | true => unfold decEndBeats DecUnit.strips; rw [h.acc, h.hold hhv, h.heldBeats_eq]

/-- Two outcomes are alike: next states that agree, or the same refusal. -/
def StepsAlike (o o' : Host.Outcome (State W) Fault Refusal) : Prop :=
  (∀ t, o = .next t → ∃ t', o' = .next t' ∧ t.Agrees t') ∧ ∀ r, o = .refused r → o' = .refused r

theorem StepsAlike.next {t t' : State W} (h : t.Agrees t') : StepsAlike (.next t) (.next t') :=
  ⟨fun _ ht => ⟨t', rfl, Host.Outcome.next.inj ht ▸ h⟩, nofun⟩

theorem StepsAlike.refused (r : Refusal) :
    StepsAlike (.refused r : Host.Outcome (State W) Fault Refusal) (.refused r) :=
  ⟨nofun, fun _ hr => hr⟩

section
variable {s s' : State W} (h : s.Agrees s')
include h

theorem State.Agrees.decUnit : s.dec.Agrees s'.dec := by
  obtain ⟨hacc, hcnt, hhv⟩ := h.dec
  exact ⟨hacc, hcnt, hhv, h.hold⟩

/-- The mode check sees only the mode (R196). -/
theorem State.Agrees.requireMode {m : Mode} {act act' : State W → State W}
    (hact : s.mode = m → (act s).Agrees (act' s')) : StepsAlike (requireMode m s act) (requireMode m s' act') := by
  by_cases hm : s.mode = m
  · rw [requireMode_accepted act hm, requireMode_accepted act' (h.mode ▸ hm)]
    exact .next (hact hm)
  · rw [requireMode_refused act hm, requireMode_refused act' (h.mode ▸ hm), h.mode]
    exact .refused _

theorem State.Agrees.withInput (q : List (HostEvent W)) :
    ({ s with input := q } : State W).Agrees { s' with input := q } :=
  ⟨h.mode, h.rom, h.enc, h.dec, h.hold, h.encOut, h.decOut, h.decOutAtReset, h.lkpOut, h.tblOut, rfl⟩

theorem State.Agrees.resetBlock [Inhabited W] : (resetBlock s).Agrees (resetBlock s') where
  mode := by simp
  rom hm := absurd hm (by simp)
  enc := by simp
  dec := by simp
  hold hhv := absurd hhv (by simp)
  encOut := h.encOut
  decOut := h.decOut
  decOutAtReset := congrArg List.length h.decOut
  lkpOut := h.lkpOut
  tblOut := h.tblOut
  input := h.input

theorem State.Agrees.actEnc (f : EncUnit → EncUnit × List EncBeat) : (s.actEnc f).Agrees (s'.actEnc f) :=
  ⟨h.mode, h.rom, by simp [State.actEnc, h.enc], h.dec, h.hold, by simp [State.actEnc, h.enc, h.encOut], h.decOut,
    h.decOutAtReset, h.lkpOut, h.tblOut, h.input⟩

theorem State.Agrees.decPushBody (k : Index) : (decPushBody k s).Agrees (decPushBody k s') := by
  obtain ⟨hunit, hbeats⟩ := h.decUnit.decPushUnit k
  exact ⟨h.mode, h.rom, h.enc, ⟨hunit.acc, hunit.cnt, hunit.hv⟩, hunit.hold, h.encOut,
    congrArg₂ (· ++ ·) h.decOut hbeats, h.decOutAtReset, h.lkpOut, h.tblOut, h.input⟩

theorem State.Agrees.decEndBody : (decEndBody s).Agrees (decEndBody s') :=
  ⟨h.mode, h.rom, h.enc, ⟨rfl, rfl, rfl⟩, fun hhv => absurd hhv Bool.false_ne_true, h.encOut,
    congrArg₂ (· ++ ·) h.decOut h.decUnit.decEndBeats_eq,
    h.decOutAtReset, h.lkpOut, h.tblOut, h.input⟩

theorem State.Agrees.emitTbl (w : W) : (s.emitTbl w).Agrees (s'.emitTbl w) :=
  ⟨h.mode, h.rom, h.enc, h.dec, h.hold, h.encOut, h.decOut, h.decOutAtReset, h.lkpOut, by simp [h.tblOut], h.input⟩

theorem State.Agrees.emitLkp (b : LkpBeat) : (s.emitLkp b).Agrees (s'.emitLkp b) :=
  ⟨h.mode, h.rom, h.enc, h.dec, h.hold, h.encOut, h.decOut, h.decOutAtReset, by simp [h.lkpOut], h.tblOut, h.input⟩

theorem State.Agrees.load (t : Table W) :
    ({ s with rom := t, mode := .ready } : State W).Agrees { s' with rom := t, mode := .ready } :=
  ⟨rfl, fun _ => rfl, h.enc, h.dec, h.hold, h.encOut, h.decOut, h.decOutAtReset, h.lkpOut, h.tblOut, h.input⟩

theorem State.Agrees.haltConfigurationError [Inhabited W] :
    (haltConfigurationError s).Agrees (haltConfigurationError s') where
  mode := by simp
  rom hm := absurd hm (by simp)
  enc := h.enc
  dec := h.dec
  hold := h.hold
  encOut := h.encOut
  decOut := h.decOut
  decOutAtReset := h.decOutAtReset
  lkpOut := h.lkpOut
  tblOut := h.tblOut
  input := h.input

/-! The commands that read or write the table: it is read in `READY` alone. -/

theorem State.Agrees.execTblRd (k : Index) : StepsAlike (execTblRd k s) (execTblRd k s') := by
  refine h.requireMode fun hm => ?_
  rw [h.rom hm]
  exact h.emitTbl _

section
variable [DecidableEq W]

theorem State.Agrees.execTblLookup (w : W) : StepsAlike (execTblLookup w s) (execTblLookup w s') := by
  refine h.requireMode fun hm => ?_
  rw [h.rom hm]
  cases tblFind s'.rom w <;> exact h.emitLkp _

theorem State.Agrees.execDecWord (w : W) : StepsAlike (execDecWord w s) (execDecWord w s') := by
  refine h.requireMode fun hm => ?_
  rw [h.rom hm]
  cases tblFind s'.rom w <;> exact h.decPushBody _

theorem State.Agrees.execTblLoad [Inhabited W] (src : List W) :
    StepsAlike (execTblLoad src s) (execTblLoad src s') := by
  refine h.requireMode fun _ => ?_
  cases tableOf src with
  | some t => exact h.load t
  | none => exact h.haltConfigurationError

end

end

/-- Every command does the same to states that agree. -/
theorem State.Agrees.exec {s s' : State} (h : s.Agrees s') (i : Instr) : StepsAlike (exec i s) (exec i s') := by
  cases i with
  | encPush b => exact h.requireMode fun _ => h.actEnc (encPushUnit b)
  | encEnd => exact h.requireMode fun _ => h.actEnc fun e => (.init, encEndBeats e)
  | decPush k => exact h.requireMode fun _ => h.decPushBody k
  | decMiss => exact h.requireMode fun _ => h.decPushBody MISS_IDX
  | decEnd => exact h.requireMode fun _ => h.decEndBody
  | tblRd k => exact h.execTblRd k
  | tblLoad src => exact h.execTblLoad src
  | tblLookup w => exact h.execTblLookup w
  | decWord w => exact h.execDecWord w

/-- One step from two states that agree: the same event is met, and it does the same to both. -/
theorem State.Agrees.step {s s' : State} (h : s.Agrees s') : StepsAlike (step s) (step s') := by
  unfold Machine.step
  match hi : s.input with
  | [] =>
    rw [stepWith_nil hi, stepWith_nil (h.input ▸ hi)]
    exact .next h
  | ⟨true, c⟩ :: rest =>
    rw [stepWith_reset hi, stepWith_reset (h.input ▸ hi)]
    exact .next (h.withInput rest).resetBlock
  | ⟨false, none⟩ :: rest =>
    rw [stepWith_idle hi, stepWith_idle (h.input ▸ hi)]
    exact .next (h.withInput rest)
  | ⟨false, some c⟩ :: rest =>
    cases hc : decode c with
    | ok i =>
      rw [stepWith_command hi hc, stepWith_command (h.input ▸ hi) hc]
      exact (h.withInput rest).exec i
    | error why =>
      rw [stepWith_reserved hi hc, stepWith_reserved (h.input ▸ hi) hc]
      exact .refused _

end Sys2Proof.Machine
end

section
/-! Independence: the two units' commands commute (R35), and the event history is read by no command (R33). -/

namespace Sys2Proof.Machine

/-- Two operations behind the same mode check. -/
theorem requireMode_comm {m : Mode} {act act' : State → State} (hmode' : ∀ s, (act' s).mode = s.mode)
    (hcomm : ∀ s, act' (act s) = act (act' s)) {s t u : State} (ht : requireMode m s act = .next t)
    (hu : requireMode m t act' = .next u) :
    ∃ v, requireMode m s act' = .next v ∧ requireMode m v act = .next u := by
  obtain ⟨hm, rfl⟩ := requireMode_next.1 ht
  obtain ⟨-, rfl⟩ := requireMode_next.1 hu
  exact ⟨_, requireMode_accepted _ hm, hcomm s ▸ requireMode_accepted _ ((hmode' s).trans hm)⟩

/-- An encoder command's action commutes with every decoder command's. -/
theorem exec_decCommand_comm {j : Instr} (h : isDecCommand j = true) :
    ∃ act, (∀ s, exec j s = requireMode .ready s act) ∧ (∀ s, (act s).mode = s.mode) ∧
      ∀ f s, act (s.actEnc f) = (act s).actEnc f := by
  obtain rfl | ⟨k, hk, -⟩ := exec_decCommand h
  · exact ⟨decEndBody, exec_decEnd_eq, fun _ => rfl, fun _ _ => rfl⟩
  · exact ⟨fun s => decPushBody (k s.rom) s, fun s => (hk s).trans rfl, fun _ => rfl, fun _ _ => rfl⟩

/-- The state with another event history. -/
def State.withHistory (s : State) (a : List EncBeat) (b : List DecBeat) (m : Nat) (c : List LkpBeat) (x : List WORD)
    (q : List HostEvent) : State :=
  { s with encOut := a, decOut := b, decOutAtReset := m, lkpOut := c, tblOut := x, input := q }

/-- `act` puts some beats on the streams of `s`, and with another event history in their place it puts the same beats on
and does the same otherwise. -/
def AppendsBeats (act : State → State) (s : State) : Prop :=
  ∃ (e : List EncBeat) (d : List DecBeat) (l : List LkpBeat) (w : List WORD),
    (act s).encOut = s.encOut ++ e ∧ (act s).decOut = s.decOut ++ d ∧ (act s).lkpOut = s.lkpOut ++ l ∧
      (act s).tblOut = s.tblOut ++ w ∧ (act s).input = s.input ∧
      ∀ a b m c x q, act (s.withHistory a b m c x q) = (act s).withHistory (a ++ e) (b ++ d) m (c ++ l) (x ++ w) q

theorem actEnc_appendsBeats (f : EncUnit → EncUnit × List EncBeat) (s : State) : AppendsBeats (State.actEnc f) s :=
  ⟨(f s.enc).2, [], [], [], rfl, by simp [State.actEnc], by simp [State.actEnc], by simp [State.actEnc], rfl,
    fun _ _ _ _ _ _ => by simp [State.withHistory, State.actEnc]; rfl⟩

theorem decPushBody_appendsBeats (k : Table → Index) (s : State) :
    AppendsBeats (fun s => decPushBody (k s.rom) s) s :=
  ⟨[], (decPushUnit (k s.rom) s.dec).2, [], [], by simp [decPushBody], rfl, by simp [decPushBody],
    by simp [decPushBody], rfl,
    fun _ _ _ _ _ _ => by simp [State.withHistory, decPushBody]; rfl⟩

theorem decEndBody_appendsBeats (s : State) : AppendsBeats decEndBody s :=
  ⟨[], decEndBeats s.dec, [], [], by simp [decEndBody], rfl, by simp [decEndBody], by simp [decEndBody], rfl,
    fun _ _ _ _ _ _ => by simp [State.withHistory, decEndBody]; rfl⟩

theorem emitTbl_appendsBeats (k : Index) (s : State) : AppendsBeats (fun s => s.emitTbl (tblRead s.rom k)) s :=
  ⟨[], [], [], [tblRead s.rom k], by simp, by simp, by simp, rfl, rfl,
    fun _ _ _ _ _ _ => by simp [State.withHistory]; rfl⟩

theorem emitLkp_appendsBeats (b : Table → LkpBeat) (s : State) : AppendsBeats (fun s => s.emitLkp (b s.rom)) s :=
  ⟨[], [], [b s.rom], [], by simp, by simp, rfl, by simp, rfl,
    fun _ _ _ _ _ _ => by simp [State.withHistory]; rfl⟩

/-- A change of the mode and the table alone. -/
theorem load_appendsBeats (t : Table) (s : State) :
    AppendsBeats (fun s => { s with rom := t, mode := .ready }) s :=
  ⟨[], [], [], [], by simp, by simp, by simp, by simp, rfl, fun _ _ _ _ _ _ => by simp [State.withHistory]⟩

theorem haltConfigurationError_appendsBeats (s : State) : AppendsBeats haltConfigurationError s :=
  ⟨[], [], [], [], by simp, by simp, by simp, by simp, rfl, fun _ _ _ _ _ _ => by simp [State.withHistory]; rfl⟩

theorem execTblLookup_eq (w : WORD) (s : State) : execTblLookup w s =
    requireMode .ready s fun s => s.emitLkp ⟨(tblFind s.rom w).isSome, tblSub s.rom w⟩ := by
  unfold execTblLookup
  congr 1
  funext s
  unfold tblSub
  cases tblFind s.rom w <;> rfl

/-- Every command is an operation behind a mode check, and the operation puts beats on the streams. -/
def HistoryFree (i : Instr) : Prop :=
  ∃ m act, (∀ s, exec i s = requireMode m s act) ∧ ∀ s, AppendsBeats act s

theorem historyFree_of_isEncCommand {i : Instr} (h : isEncCommand i = true) : HistoryFree i := by
  obtain ⟨f, hf⟩ := exec_encCommand h
  exact ⟨_, _, hf, actEnc_appendsBeats f⟩

theorem historyFree_of_isDecCommand {i : Instr} (h : isDecCommand i = true) : HistoryFree i := by
  obtain rfl | ⟨k, hk, -⟩ := exec_decCommand h
  · exact ⟨_, _, exec_decEnd_eq, decEndBody_appendsBeats⟩
  · exact ⟨.ready, _, fun s => (hk s).trans rfl, decPushBody_appendsBeats k⟩

theorem historyFree (i : Instr) : HistoryFree i := by
  cases i with
  | encPush | encEnd => exact historyFree_of_isEncCommand rfl
  | decPush | decMiss | decWord | decEnd => exact historyFree_of_isDecCommand rfl
  | tblRd k => exact ⟨_, _, fun _ => rfl, emitTbl_appendsBeats k⟩
  | tblLookup w =>
    exact ⟨_, _, execTblLookup_eq w, emitLkp_appendsBeats fun rom => ⟨(tblFind rom w).isSome, tblSub rom w⟩⟩
  | tblLoad src =>
    cases ht : tableOf src with
    | some t =>
      exact ⟨.unconfigured, _, fun _ => by simp only [exec_tblLoad, execTblLoad, ht], load_appendsBeats t⟩
    | none =>
      exact ⟨.unconfigured, _, fun _ => by simp only [exec_tblLoad, execTblLoad, ht],
        haltConfigurationError_appendsBeats⟩

end Sys2Proof.Machine
end

section
/-! The mode: what each mode accepts, and what changes it (R21, R196). -/

namespace Sys2Proof.Machine

theorem exec_keeps_mode {i : Instr} {s t : State} (hi : ∀ src, i ≠ .tblLoad src) (ht : exec i s = .next t) :
    t.mode = s.mode := by
  cases i with
  | encPush | encEnd =>
    obtain ⟨-, f, rfl⟩ := exec_encCommand_next rfl ht
    rfl
  | decPush | decMiss | decWord | decEnd =>
    obtain ⟨-, rfl | ⟨k, rfl⟩⟩ := exec_decCommand_next rfl ht <;> rfl
  | tblRd k =>
    obtain ⟨-, rfl⟩ := execTblRd_next.1 ht
    rfl
  | tblLookup w =>
    obtain ⟨-, rfl⟩ := execTblLookup_next.1 ht
    rfl
  | tblLoad src => exact absurd rfl (hi src)

theorem noOperand_ok {W : Type} {i j : Instr W} {opd : BitVec 11} (h : noOperand i opd = .ok j) : i = j := by
  unfold noOperand at h
  split at h
  · exact Except.ok.inj h
  · nomatch h

/-- Only the header `0b00` with a list decodes to `TBL.LOAD` (R84). -/
theorem eq_of_decode_eq_tblLoad {W : Type} {c : RawCommand W} {src : List W} (h : decode c = .ok (.tblLoad src)) :
    c = .s 0b00#2 (.list src) := by
  cases c with
  | c x =>
    simp only [decode, decodeC] at h
    split at h
    · split at h <;> nomatch h
    · nomatch noOperand_ok h
    · nomatch h
    · nomatch noOperand_ok h
    · nomatch noOperand_ok h
    · nomatch h
    · nomatch h
  | s sop p =>
    simp only [decode, decodeS] at h
    split at h
    · rename_i hsop
      cases h
      rw [BitVec.eq_of_toNat_eq (x := sop) (y := 0b00#2) hsop]
    · nomatch h
    · nomatch h
    · nomatch h
    · nomatch h

/-- R196: in `HALTED` no command is accepted. -/
theorem exec_refused_of_halted {s : State} (hm : s.mode = .halted) (i : Instr) :
    exec i s = .refused (.wrongMode .halted) := by
  rw [← hm]
  by_cases hi : ∃ src, i = .tblLoad src
  · obtain ⟨src, rfl⟩ := hi
    exact execTblLoad_refused src (by simp [hm])
  · obtain ⟨act, hact⟩ := exec_eq_requireMode_ready (not_exists.1 hi)
    exact (hact s).trans (requireMode_refused act (by simp [hm]))

/-- R196: in `READY` every command but `TBL.LOAD` is accepted. -/
theorem exec_accepted_iff_of_ready {s : State} (hm : s.mode = .ready) (i : Instr) :
    (∀ src, i ≠ .tblLoad src) ↔ ∃ t, exec i s = .next t := by
  constructor
  · intro hi
    obtain ⟨act, hact⟩ := exec_eq_requireMode_ready hi
    exact ⟨_, (hact s).trans (requireMode_accepted act hm)⟩
  · rintro ⟨t, ht⟩ src rfl
    have hunconfigured := (execTblLoad_next ht).1
    exact absurd (hm.symm.trans hunconfigured) (by decide)

/-- No step but a `RESET` and a `TBL.LOAD` in `UNCONFIGURED` changes the mode (R21). -/
theorem step_keeps_mode {s t : State} (ht : step s = .next t) (hreset : ∀ c rest, s.input ≠ ⟨true, c⟩ :: rest)
    (hload : s.mode = .unconfigured → ∀ src rest, s.input ≠ ⟨false, some (.s 0b00#2 (.list src))⟩ :: rest) :
    t.mode = s.mode := by
  obtain ⟨-, rfl⟩ | ⟨⟨r, c⟩, rest, hi, ⟨rfl, -⟩ | ⟨-, -, rfl⟩ | ⟨c, i, rfl, rfl, hd, hexec⟩⟩ := step_next ht
  · rfl
  · exact absurd hi (hreset c rest)
  · rfl
  · have hnotLoad : ∀ src, i ≠ .tblLoad src := by
      rintro src rfl
      rw [eq_of_decode_eq_tblLoad hd] at hi
      exact hload (execTblLoad_next hexec).1 src rest hi
    have hmode := exec_keeps_mode hnotLoad hexec
    exact hmode

end Sys2Proof.Machine
end

section
/-! The statements of the family of spec/10_state.md. -/

namespace Sys2Proof.Machine

open Ref

/-- Settles O4, by the cases of a step: `RESET`, an accepted command, or an event that touches neither unit. -/
theorem everyStepKeepsTheInvariant : Obligations.EveryStepKeepsTheInvariant := by
  intro s t h ht
  obtain ⟨-, rfl⟩ | ⟨ev, rest, -, ⟨-, rfl⟩ | ⟨-, -, rfl⟩ | ⟨c, i, -, -, -, hexec⟩⟩ := step_next ht
  · exact h
  · exact resetBlock_inv _
  · exact h.of_lkpOut_tblOut_input _ _ _
  · exact exec_keeps_inv (h.of_lkpOut_tblOut_input _ _ _) hexec

/-- Settles O20, by the groups of 11 of the bit string pushed. -/
theorem encoderAfterEveryPush : Obligations.EncoderAfterEveryPush := by
  intro d s rest hm henc hi
  have hbuf : Buffers s.enc.acc s.enc.cnt [] := henc ▸ buffers_nil
  obtain ⟨e, hrun, hbuf', hany⟩ := run_encPushes d hm hbuf (Nat.zero_le _) hi
  rw [List.nil_append] at hrun hbuf'
  refine ⟨_, hrun, rfl, ?_, ?_, ?_, ?_⟩
  · rw [hbuf'.cnt_toNat, length_leftover, length_bitsOfBytes]
  · rw [hany, henc]; simp
  · rw [hbuf'.acc_toNat, leftover, length_bitsOfBytes]
  · rw [fullGroups, length_bitsOfBytes, List.map_map]; rfl

/-- Settles O28, by the groups of 8 of the bit string pushed: `E` is the complete groups, the accumulator holds the bits
left over. -/
theorem decoderAfterEveryPush : Obligations.DecoderAfterEveryPush := by
  intro x s rest hm hinit hmark hsent hi
  obtain ⟨t, hrun, hframe, -, hE, hbuf, hhv⟩ := run_decPushes_emitted x hm hinit hmark hsent hi
  have hhold (hx : x ≠ []) : t.dec.hv = true := by simp [hhv, hx]
  refine ⟨t, hrun, hframe, hE, ?_, ?_, by simp [hhv], fun hx => getLast?_emitted (hhold hx), fun hx => ?_⟩
  · rw [hbuf.cnt_toNat, length_leftover, length_bitsOfIndices]
  · rw [hbuf.acc_toNat, tailValue_eq_valueOf_leftover]
  · have hlen := congrArg List.length hE
    rw [emitted_eq, DecUnit.held_of_hv (hhold hx), rawBytes_eq_fullGroups] at hlen
    simpa using hlen

/-- Settles O46, by one step from two states that agree. -/
theorem unspecifiedValuesNeverShow : Obligations.UnspecifiedValuesNeverShow := fun _ _ h => h.step

/-- Settles O52: after `RESET` and the load the decoder is initial and no byte behind the mark is out, whatever was
before. -/
theorem emittedSequenceStartsAfreshAtReset : Obligations.EmittedSequenceStartsAfreshAtReset := by
  refine ⟨fun s c rest hi => ⟨_, step_reset hi, emitted_resetBlock _, rfl⟩, fun x rom s rest hv hi => ?_⟩
  obtain ⟨q, hq⟩ : ∃ q, q = x.map (fun i => Trace.command (.decPush i)) ++ rest := ⟨_, rfl⟩
  obtain ⟨r, hr⟩ : ∃ r, r = resetBlock { s with input := Trace.command (.tblLoad rom.toList) :: q } := ⟨_, rfl⟩
  have hreset : step s = .next r := hr ▸ step_reset (by rw [hi, hq]; rfl)
  have hload : step r = .next { r with mode := .ready, rom := rom, input := q } :=
    step_tblLoad (by simp [hr]) hv (by simp [hr])
  obtain ⟨t, hrun, hframe, ⟨out, hout⟩, hE, -, -⟩ :=
    run_decPushes_emitted x (s := { r with mode := .ready, rom := rom, input := q })
      rfl (by simp [hr, DecUnit.Initial]) (by simp [hr]) (hr ▸ sentBytes_resetBlock _) hq
  exact ⟨t, (run_succ_of_step hreset _).trans ((run_succ_of_step hload _).trans hrun), hE, by rw [hframe], out.map .B,
    by rw [hout, hr]; rfl⟩

/-- Settles O7, by what each mode accepts and by the cases of a step. -/
theorem modeChangesOnlyByResetAndLoad : Obligations.ModeChangesOnlyByResetAndLoad := by
  refine ⟨rfl, rfl, rfl, fun m => by cases m <;> decide, fun i s hm => exec_accepted_iff_of_ready hm i,
    fun i s hm => exec_refused_of_halted hm i, fun s c rest hi => ⟨_, step_reset hi, rfl⟩,
    fun s src rest hm hi => ⟨fun hv => ?valid, fun hv => ?invalid⟩, fun s t => step_keeps_mode⟩
  case valid =>
    obtain ⟨rom, hrom, -⟩ := exists_tableOf_eq_some hv
    exact ⟨_, (stepWith_command hi rfl).trans (execTblLoad_of_tableOf_eq_some hm hrom), rfl⟩
  case invalid =>
    have hnone := tableOf_eq_none_of_not_validList hv
    exact ⟨_, (stepWith_command hi rfl).trans (execTblLoad_of_tableOf_eq_none hm hnone), rfl⟩

/-- Settles O18: an encoder command is a function of the encoder's registers. -/
theorem encoderCommandsFrame : Obligations.EncoderCommandsFrame := by
  intro i s t hi ht
  obtain ⟨-, f, rfl⟩ := exec_encCommand_next hi ht
  exact ⟨rfl, fun _ => rfl, rfl, rfl, rfl, rfl, rfl, rfl, ⟨_, rfl⟩, rfl, rfl⟩

/-- Settles O27: a decoder command is a push or `DEC.END`. -/
theorem decoderCommandsFrame : Obligations.DecoderCommandsFrame := by
  intro i s t hi ht
  obtain ⟨-, rfl | ⟨k, rfl⟩⟩ := exec_decCommand_next hi ht
  · exact ⟨rfl, fun _ => rfl, rfl, rfl, rfl, rfl, rfl, ⟨_, rfl⟩, rfl, rfl⟩
  · exact ⟨rfl, fun _ => rfl, rfl, rfl, rfl, rfl, rfl, ⟨_, rfl⟩, rfl, rfl⟩

/-- Settles O43, by the two operations on the state, which write different fields. -/
theorem encoderAndDecoderCommandsCommute : Obligations.EncoderAndDecoderCommandsCommute := by
  intro i j s t u hi hj
  obtain ⟨f, hf⟩ := exec_encCommand hi
  obtain ⟨act, hact, hmode, hcomm⟩ := exec_decCommand_comm hj
  simp only [hf, hact]
  exact ⟨requireMode_comm (act := State.actEnc f) hmode (hcomm f),
    requireMode_comm (act' := State.actEnc f) (fun _ => rfl) fun s => (hcomm f s).symm⟩

/-- Settles O44: an encoder command is a function of the encoder's registers. -/
theorem encoderReadsOnlyItsOwnRegisters : Obligations.EncoderReadsOnlyItsOwnRegisters := by
  intro i s s' t hi hmode henc ht
  obtain ⟨f, hf⟩ := exec_encCommand hi
  obtain ⟨hm, rfl⟩ := requireMode_next.1 ((hf s).symm.trans ht)
  refine ⟨s'.actEnc f, (f s.enc).2, (hf s').trans (requireMode_accepted _ (hmode ▸ hm)), ?_, rfl, ?_⟩ <;>
    simp [State.actEnc, henc]

/-- Settles O45: a push is a function of the decoder's registers and the index, which `DEC.WORD` alone takes from the
table. -/
theorem decoderReadsOnlyItsOwnRegisters : Obligations.DecoderReadsOnlyItsOwnRegisters := by
  intro i s s' t hi hmode hdec hrom ht
  obtain rfl | ⟨k, hk, hk_rom⟩ := exec_decCommand hi
  · obtain ⟨hm, rfl⟩ := requireMode_next.1 ((exec_decEnd_eq s).symm.trans ht)
    exact ⟨_, decEndBeats s.dec, exec_decEnd_of_ready (hmode ▸ hm), rfl, rfl, rfl,
      fun hhv => absurd hhv Bool.false_ne_true, rfl, by rw [hdec]; rfl⟩
  · obtain ⟨hm, rfl⟩ := requireMode_next.1 (((hk s).trans (exec_decPush_eq _ s)).symm.trans ht)
    have hexec := (hk s').trans (exec_decPush_of_ready (hmode ▸ hm) _)
    rw [← hk_rom _ _ hrom] at hexec
    have hunit : (decPushBody (k s.rom) s').dec = (decPushBody (k s.rom) s).dec := by simp [decPushBody, hdec]
    exact ⟨_, (decPushUnit (k s.rom) s.dec).2, hexec, by rw [hunit], by rw [hunit], by rw [hunit],
      fun _ => by rw [hunit], rfl, by rw [hdec]; rfl⟩

/-- Settles O47: every command is an operation behind a mode check that appends beats whatever the history is. -/
theorem eventHistoryInfluencesNothing : Obligations.EventHistoryInfluencesNothing := by
  intro i s t ht
  obtain ⟨m, act, hact, happends⟩ := historyFree i
  obtain ⟨hm, rfl⟩ := requireMode_next.1 ((hact s).symm.trans ht)
  obtain ⟨e, d, l, w, he, hd, hl, hw, hin, hsame⟩ := happends s
  refine ⟨e, d, l, w, he, hd, hl, hw, hin, fun a b n c x q => ?_⟩
  have hexec := (hact (s.withHistory a b n c x q)).trans (requireMode_accepted act hm)
  rwa [hsame] at hexec

/-- Settles O53, by what a push and `DEC.END` make of `E`. -/
theorem decEndDropsOrReleasesTheLastByteOfE : Obligations.DecEndDropsOrReleasesTheLastByteOfE := by
  refine ⟨fun k s hm hinv hmark => ?push, fun s hm => ?fin⟩
  case push =>
    obtain ⟨ys, hne, hE⟩ := decPushBody_emitted hinv hmark k
    have hlast := getLast?_emitted (s := decPushBody k s) (decPushUnit_hv k hinv.1)
    rw [hE, List.getLast?_append_of_ne_nil _ hne] at hlast
    exact ⟨_, ys, exec_decPush_of_ready hm k, hne, hE, hlast⟩
  case fin =>
    refine ⟨_, s.dec.released, exec_decEnd_of_ready hm, ?_, emitted_decEndBody s, sentBytes_append_released s⟩
    rw [← decEndBeats_eq_map_released]
    rfl

/-- Settles O1, by the next states of `RESET`, `ENC.END` and `DEC.END`. -/
theorem registerValuesAfterResetAndEnd : Obligations.RegisterValuesAfterResetAndEnd := by
  refine ⟨⟨rfl, rfl, rfl, rfl, rfl, rfl, rfl⟩,
    fun s c rest hi => ⟨_, step_reset hi, rfl, rfl, rfl, rfl, rfl, rfl, rfl⟩,
    fun s hm => ⟨_, execEncEnd_next.2 ⟨hm, rfl⟩, hm, rfl, rfl, rfl, ?_, ?_⟩,
    fun s hm => ⟨_, exec_decEnd_of_ready hm, hm, rfl, rfl, rfl, rfl, rfl, ?_, ?_⟩⟩ <;>
  simp [State.cfgOk, State.cfgErr, hm, decEndBody]

end Sys2Proof.Machine
end

section
/-! What commands leave of the table (R31, R62). -/

namespace Sys2Proof.Machine

/-- R62: no command but `TBL.LOAD` writes the table. -/
theorem exec_keeps_rom {i : Instr} {s t : State} (hi : ∀ src, i ≠ .tblLoad src) (ht : exec i s = .next t) :
    t.rom = s.rom := by
  cases i with
  | encPush | encEnd =>
    obtain ⟨-, f, rfl⟩ := exec_encCommand_next rfl ht
    rfl
  | decPush | decMiss | decWord | decEnd =>
    obtain ⟨-, rfl | ⟨k, rfl⟩⟩ := exec_decCommand_next rfl ht <;> rfl
  | tblRd k =>
    obtain ⟨-, rfl⟩ := execTblRd_next.1 ht
    rfl
  | tblLookup w =>
    obtain ⟨-, rfl⟩ := execTblLookup_next.1 ht
    rfl
  | tblLoad src => exact absurd rfl (hi src)

/-- R31: a command accepted in `READY` is not `TBL.LOAD` (R196), so it keeps the mode and the table. -/
theorem exec_keeps_ready_and_rom {i : Instr} {s t : State} (hm : s.mode = .ready) (ht : exec i s = .next t) :
    t.mode = .ready ∧ t.rom = s.rom := by
  have hnotLoad : ∀ src, i ≠ .tblLoad src := (exec_accepted_iff_of_ready hm i).2 ⟨t, ht⟩
  exact ⟨(exec_keeps_mode hnotLoad ht).trans hm, exec_keeps_rom hnotLoad ht⟩

end Sys2Proof.Machine
end

section
/-! How many bytes a message decodes to (R64, R160). -/

namespace Sys2Proof.Machine.Ref

@[simp] theorem length_rawBytes (x : List Index) : (rawBytes x).length = 11 * x.length / 8 := by simp [rawBytes]

/-- The strip of R160 removes one byte or none, and removes one only where there is one. -/
theorem decodeIdx_eq_rawBytes_or_eq_dropLast (x : List Index) :
    decodeIdx x = rawBytes x ∨ (rawBytes x ≠ [] ∧ decodeIdx x = (rawBytes x).dropLast) := by
  unfold decodeIdx
  split
  · rename_i hstrip
    obtain ⟨-, hlast⟩ := hstrip
    exact .inr ⟨List.ne_nil_of_mem (List.mem_of_getLast? hlast), rfl⟩
  · exact .inl rfl

end Sys2Proof.Machine.Ref
end

section
/-! The statements of the family of spec/20_memory.md. -/

namespace Sys2Proof.Machine

open Ref

/-- Settles O33: the complete bytes are `floor(11w/8)`, and the strip takes at most one of them; the four short sequences
are decoded. -/
theorem decodedLengthAndNotInjective : Obligations.DecodedLengthAndNotInjective := by
  refine ⟨fun x => ?length, by decide, by decide, by decide⟩
  obtain heq | ⟨hne, heq⟩ := decodeIdx_eq_rawBytes_or_eq_dropLast x
  · exact .inl (by rw [heq, length_rawBytes])
  · have hpos : 0 < 11 * x.length / 8 := length_rawBytes x ▸ List.length_pos_iff.2 hne
    refine .inr ⟨fun hx => ?_, ?_⟩
    · simp [hx] at hpos
    · rw [heq, List.length_dropLast, length_rawBytes]
      exact Nat.sub_add_cancel hpos

/-- Settles O41, by the cases of a step: nothing is done, `RESET` is taken, or a command accepted in `READY` runs. -/
theorem tableIsImmutableWhileReady : Obligations.TableIsImmutableWhileReady := by
  intro s t hm ht
  obtain ⟨-, rfl⟩ | ⟨⟨r, c⟩, rest, hi, ⟨rfl, -⟩ | ⟨-, -, rfl⟩ | ⟨c, i, -, -, -, hexec⟩⟩ := step_next ht
  · exact .inr ⟨hm, rfl⟩
  · exact .inl ⟨c, rest, hi⟩
  · exact .inr ⟨hm, rfl⟩
  · exact .inr (exec_keeps_ready_and_rom (s := { s with input := rest }) hm hexec)

end Sys2Proof.Machine
end

section
/-! What the decoder answers (R81, R93, R104): a command with the sent word as its encoding, or the refusal of a word in
one of the reserved ranges. -/

namespace Sys2Proof

variable {W : Type}

/-- A concatenation as a number: the left part stands above the bits of the right one. -/
theorem toNat_append_eq_add {m n : Nat} (x : BitVec m) (y : BitVec n) :
    (x ++ y).toNat = x.toNat * 2 ^ n + y.toNat := by
  rw [BitVec.toNat_append, ← Nat.shiftLeft_add_eq_or_of_lt y.isLt, Nat.shiftLeft_eq]

theorem toNat_eq_opcOf_opdOf (x : BitVec 14) : x.toNat = (opcOf x).toNat * 2048 + (opdOf x).toNat := by
  conv_lhs => rw [← opc_append_opd x]
  exact toNat_append_eq_add _ _

theorem toNat_eq_opdHigh_opdByte (opd : BitVec 11) : opd.toNat = (opdHigh opd).toNat * 256 + (opdByte opd).toNat := by
  have := opd.isLt
  simp only [opdHigh, opdByte, BitVec.extractLsb'_toNat, Nat.shiftRight_eq_div_pow]
  omega

/-- R104's ranges of reserved format `C` words. -/
theorem wellFormed_c_eq_false_iff (x : BitVec 14) : (.c x : RawCommand W).wellFormed = false ↔
    0x3000 ≤ x.toNat ∨ (0x0100 ≤ x.toNat ∧ x.toNat ≤ 0x07FF) ∨ (0x0801 ≤ x.toNat ∧ x.toNat ≤ 0x0FFF) ∨
      (0x1801 ≤ x.toNat ∧ x.toNat ≤ 0x1FFF) ∨ (0x2001 ≤ x.toNat ∧ x.toNat ≤ 0x27FF) := by
  simp only [RawCommand.wellFormed, opcodeOk, operandOk, Bool.and_eq_false_iff, Bool.not_eq_false',
    Bool.or_eq_true, decide_eq_true_eq, decide_eq_false_iff_not, not_lt, or_assoc]

theorem noOperand_cases (i : Instr W) (opd : BitVec 11) :
    (opd = 0#11 ∧ noOperand i opd = .ok i) ∨ (0 < opd.toNat ∧ noOperand i opd = .error .operand) := by
  by_cases h : opd = 0#11
  · exact .inl ⟨h, if_pos h⟩
  · exact .inr ⟨by bv_omega, if_neg h⟩

/-- The word with the opcode `opc` is `opc` followed by the word's operand. -/
theorem append_opdOf {x : BitVec 14} {opc : BitVec 3} (h : (opcOf x).toNat = opc.toNat) : opc ++ opdOf x = x := by
  rw [← BitVec.eq_of_toNat_eq h, opc_append_opd]

theorem encode_encPush_opdByte {x : BitVec 14} (hopc : (opcOf x).toNat = 0) (hhigh : opdHigh (opdOf x) = 0#3) :
    encode (.encPush (opdByte (opdOf x)) : Instr W) = .c x := by
  have hx := toNat_eq_opcOf_opdOf x
  have hopd := toNat_eq_opdHigh_opdByte (opdOf x)
  have hword : (0b000#3 ++ 0b000#3 ++ opdByte (opdOf x) : BitVec 14) = x := by
    refine BitVec.eq_of_toNat_eq ((toNat_append_eq_add _ _).trans ?_)
    rw [hx, hopd, hopc, hhigh]
    simp
  rw [encode, hword]

/-- Decoding a command without operand, whose opcode is `opc` and whose other words are reserved (R83, R104). -/
theorem noOperand_opdOf_cases {x : BitVec 14} {opc : BitVec 3} {i : Instr W} (hopc : (opcOf x).toNat = opc.toNat)
    (hi : encode i = .c (opc ++ 0#11)) (hres : 0 < (opdOf x).toNat → (.c x : RawCommand W).wellFormed = false) :
    (∃ j, noOperand i (opdOf x) = .ok j ∧ encode j = .c x) ∨
      ∃ why, noOperand i (opdOf x) = .error why ∧ (.c x : RawCommand W).wellFormed = false := by
  obtain ⟨hz, hok⟩ | ⟨hpos, herr⟩ := noOperand_cases i (opdOf x)
  · exact .inl ⟨i, hok, by rw [hi, ← hz, append_opdOf hopc]⟩
  · exact .inr ⟨.operand, herr, hres hpos⟩

/-- Everything the decoder can answer for a format `C` word (R93). -/
theorem decodeC_cases (x : BitVec 14) :
    (∃ i : Instr W, decodeC x = .ok i ∧ encode i = .c x) ∨
      ∃ why, (decodeC x : Except Reserved (Instr W)) = .error why ∧ (.c x : RawCommand W).wellFormed = false := by
  have hx := toNat_eq_opcOf_opdOf x
  have hopd := (opdOf x).isLt
  have hres := wellFormed_c_eq_false_iff (W := W) x
  unfold decodeC
  split
  case h_1 hopc =>
    split
    case isTrue hhigh => exact .inl ⟨_, rfl, encode_encPush_opdByte hopc hhigh⟩
    case isFalse hhigh =>
      have hsplit := toNat_eq_opdHigh_opdByte (opdOf x)
      have hpos : (opdHigh (opdOf x)).toNat ≠ 0 := fun hzero => hhigh (BitVec.eq_of_toNat_eq hzero)
      exact .inr ⟨_, rfl, hres.2 (by omega)⟩
  case h_2 hopc => exact noOperand_opdOf_cases (opc := 1#3) hopc rfl fun h => hres.2 (by omega)
  case h_3 hopc => exact .inl ⟨_, rfl, by rw [encode, append_opdOf hopc]⟩
  case h_4 hopc => exact noOperand_opdOf_cases (opc := 3#3) hopc rfl fun h => hres.2 (by omega)
  case h_5 hopc => exact noOperand_opdOf_cases (opc := 4#3) hopc rfl fun h => hres.2 (by omega)
  case h_6 hopc => exact .inl ⟨_, rfl, by rw [encode, append_opdOf hopc]⟩
  case h_7 hne0 hne1 hne2 hne3 hne4 hne5 =>
    simp only [imp_false] at hne0 hne1 hne2 hne3 hne4 hne5
    exact .inr ⟨_, rfl, hres.2 (by omega)⟩

/-- Everything the decoder can answer for a format `S` command (R84). -/
theorem decodeS_cases (sop : BitVec 2) (p : Payload W) :
    (∃ i, decodeS sop p = .ok i ∧ encode i = .s sop p) ∨
      ∃ why, decodeS sop p = .error why ∧ (.s sop p : RawCommand W).wellFormed = false := by
  have hsop : sop = 0#2 ∨ sop = 1#2 ∨ sop = 2#2 ∨ sop = 3#2 := by revert sop; decide
  obtain rfl | rfl | rfl | rfl := hsop <;> cases p
  case inl.list | inr.inl.one | inr.inr.inl.one => exact .inl ⟨_, rfl, rfl⟩
  all_goals exact .inr ⟨_, rfl, rfl⟩

/-- Everything the decoder can answer: the command that the sent one is the encoding of, or the refusal of a reserved
encoding (R93, R104). -/
theorem decode_cases (c : RawCommand W) :
    (∃ i, decode c = .ok i ∧ encode i = c) ∨ ∃ why, decode c = .error why ∧ c.wellFormed = false := by
  cases c with
  | c x => exact decodeC_cases x
  | s sop p => exact decodeS_cases sop p

theorem decode_eq_ok_iff (c : RawCommand W) (i : Instr W) : decode c = .ok i ↔ encode i = c := by
  constructor
  · intro h
    obtain ⟨j, hj, henc⟩ | ⟨why, herr, -⟩ := decode_cases c
    · rwa [Except.ok.inj (h.symm.trans hj)]
    · nomatch h.symm.trans herr
  · rintro rfl
    exact Machine.decode_encode i

theorem wellFormed_encode (i : Instr) : (encode i).wellFormed = true :=
  match i with
  | .encPush b => Laws.EncodesWellFormed.encPush b
  | .encEnd => Laws.EncodesWellFormed.encEnd
  | .decPush k => Laws.EncodesWellFormed.decPush k
  | .decMiss => Laws.EncodesWellFormed.decMiss
  | .decEnd => Laws.EncodesWellFormed.decEnd
  | .tblRd k => Laws.EncodesWellFormed.tblRd k
  | .tblLoad src => Laws.EncodesWellFormed.tblLoad src
  | .tblLookup w => Laws.EncodesWellFormed.tblLookup w
  | .decWord w => Laws.EncodesWellFormed.decWord w

theorem wellFormed_eq_true_iff_exists_decode (c : RawCommand) : c.wellFormed = true ↔ ∃ i, decode c = .ok i := by
  constructor
  · intro hwf
    obtain ⟨i, hi, -⟩ | ⟨why, -, hbad⟩ := decode_cases c
    · exact ⟨i, hi⟩
    · exact absurd (hwf.symm.trans hbad) (by decide)
  · rintro ⟨i, hi⟩
    rw [← (decode_eq_ok_iff c i).1 hi]
    exact wellFormed_encode i

theorem wellFormed_eq_false_iff_exists_decode_error (c : RawCommand) :
    c.wellFormed = false ↔ ∃ why, decode c = .error why := by
  rw [← Bool.not_eq_true, wellFormed_eq_true_iff_exists_decode]
  cases decode c <;> simp

end Sys2Proof
end

section
/-! The terminator words (R86, R87): `T(r, v)` is the odd number `2v + 1` moved up by `10 - r` bits. -/

namespace Sys2Proof.Machine.Ref

theorem T_eq_two_pow_mul_odd {r : Nat} (hr : r ≤ 10) (v : Nat) : T r v = 2 ^ (10 - r) * (2 * v + 1) := by
  have hlt : 1 <<< (10 - r) < 2 ^ (11 - r) := by
    rw [Nat.one_shiftLeft]
    exact Nat.pow_lt_pow_right (by norm_num) (by omega)
  rw [T, ← Nat.shiftLeft_add_eq_or_of_lt hlt, Nat.shiftLeft_eq, Nat.one_shiftLeft,
    show 11 - r = 10 - r + 1 by omega, pow_succ]
  ring

theorem T_testBit {r : Nat} (hr : r ≤ 10) (v : Nat) :
    (T r v).testBit (10 - r) = true ∧ ∀ k, k < 10 - r → (T r v).testBit k = false := by
  rw [T_eq_two_pow_mul_odd hr]
  refine ⟨by simp [Nat.testBit_two_pow_mul], fun k hk => ?_⟩
  rw [Nat.testBit_two_pow_mul, decide_eq_false (Nat.not_le.2 hk), Bool.false_and]

/-- The least significant `1` bit of one cannot lie below that of the other. -/
theorem le_of_T_eq {r r' v v' : Nat} (hr : r ≤ 10) (hr' : r' ≤ 10) (h : T r v = T r' v') : r ≤ r' := by
  obtain ⟨hset, -⟩ := T_testBit hr v
  obtain ⟨-, hclear⟩ := T_testBit hr' v'
  by_contra hlt
  have hzero := hclear (10 - r) (by omega)
  rw [← h, hset] at hzero
  cases hzero

/-- R87: the position of the least significant `1` bit tells `r`, and the bits above it are `v`. -/
theorem T_injective {r r' v v' : Nat} (hr : r ≤ 10) (hr' : r' ≤ 10) (h : T r v = T r' v') : r = r' ∧ v = v' := by
  obtain rfl : r = r' := Nat.le_antisymm (le_of_T_eq hr hr' h) (le_of_T_eq hr' hr h.symm)
  rw [T_eq_two_pow_mul_odd hr, T_eq_two_pow_mul_odd hr] at h
  have hodd := Nat.eq_of_mul_eq_mul_left (by positivity) h
  exact ⟨rfl, by omega⟩

/-- R87: a non-zero index is a power of two times an odd number. -/
theorem exists_eq_T {g : Nat} (hpos : 0 < g) (hlt : g < 2048) : ∃ r v, r ≤ 10 ∧ v < 2 ^ r ∧ g = T r v := by
  obtain ⟨a, m, ⟨v, rfl⟩, rfl⟩ := Nat.exists_eq_two_pow_mul_odd hpos.ne'
  have ha : a ≤ 10 := by
    by_contra hgt
    have hpow : 2 ^ 11 ≤ 2 ^ a := Nat.pow_le_pow_right (by norm_num) (by omega)
    have hmul : 2 ^ a ≤ 2 ^ a * (2 * v + 1) := Nat.le_mul_of_pos_right _ (by omega)
    omega
  refine ⟨10 - a, v, by omega, ?_, ?_⟩
  · have hsplit : 2048 = 2 ^ a * (2 * 2 ^ (10 - a)) := by
      rw [← pow_succ', ← pow_add, show a + (10 - a + 1) = 11 by omega]; norm_num
    have hodd : 2 * v + 1 < 2 * 2 ^ (10 - a) := Nat.lt_of_mul_lt_mul_left (hlt.trans_eq hsplit)
    omega
  · rw [T_eq_two_pow_mul_odd (by omega), show 10 - (10 - a) = a by omega]

/-- The machine's terminator word is `T(r, v)` (R86, R143). -/
theorem terminator_ofNat_toNat {r v : Nat} (hr : r ≤ 10) (hv : v < 2 ^ r) :
    (terminator (BitVec.ofNat 18 v) (BitVec.ofNat 5 r)).toNat = T r v := by
  have hcnt : (BitVec.ofNat 5 r).toNat = r := BitVec.toNat_ofNat r 5 ▸ Nat.mod_eq_of_lt (by omega)
  have hpow : 2 ^ r ≤ 2 ^ 10 := Nat.pow_le_pow_right (by norm_num) hr
  have hacc : (BitVec.ofNat 18 v).toNat = v := BitVec.toNat_ofNat v 18 ▸ Nat.mod_eq_of_lt (by omega)
  rw [terminator_toNat (by rwa [hcnt]) (by rwa [hcnt, hacc]), hcnt, hacc, T_eq_two_pow_mul_odd hr,
    show 11 - r = 10 - r + 1 by omega, pow_succ]
  ring

end Sys2Proof.Machine.Ref
end

section
/-! The rows of the opcode map (R92): each row of format `C` selects a range of words, no two ranges meet, and a command's encoding selects the command's own row alone. -/

namespace Sys2Proof

/-- A mask that leaves the low `k` of 14 bits free keeps the multiple of `2^k` below the word. -/
theorem and_two_pow_sub_two_pow {x k : Nat} (hx : x < 2 ^ 14) (hk : k ≤ 14) :
    x &&& (2 ^ 14 - 2 ^ k) = x / 2 ^ k * 2 ^ k := by
  have hmask : 2 ^ 14 - 2 ^ k = (2 ^ (14 - k) - 1) * 2 ^ k := by
    rw [Nat.sub_mul, ← pow_add, Nat.sub_add_cancel hk, one_mul]
  have hhigh : x / 2 ^ k < 2 ^ (14 - k) := by
    rw [Nat.div_lt_iff_lt_mul (by positivity), ← pow_add, Nat.sub_add_cancel hk]
    exact hx
  have hand : x / 2 ^ k = x / 2 ^ k &&& (2 ^ (14 - k) - 1) := by
    rw [Nat.and_two_pow_sub_one_eq_mod, Nat.mod_eq_of_lt hhigh]
  rw [hmask]
  conv_rhs => rw [hand]
  refine Nat.eq_of_testBit_eq fun j => ?_
  simp only [Nat.testBit_and, Nat.testBit_mul_two_pow, Nat.testBit_div_two_pow]
  by_cases hj : k ≤ j <;> simp [hj]

/-- The last word that a row of format `C` selects: every bit that its mask leaves free is a one. -/
@[simp] def OpcodeRow.lastWord (r : OpcodeRow) : Nat := r.value + (0x3FFF - r.mask)

/-- A row of format `C` selects the words from its value to its last word. -/
theorem selects_C_iff {x : Nat} (hx : x < 2 ^ 14) : ∀ r ∈ opcodeRows, (r.selects .C x = true ↔
    r.format = .C ∧ r.value ≤ x ∧ x ≤ r.lastWord) := by
  have hbyte : x &&& 0x3F00 = x / 256 * 256 := and_two_pow_sub_two_pow (k := 8) hx (by norm_num)
  have hindex : x &&& 0x3800 = x / 2048 * 2048 := and_two_pow_sub_two_pow (k := 11) hx (by norm_num)
  have hnone : x &&& 0x3FFF = x := by simpa using and_two_pow_sub_two_pow (k := 0) hx (by norm_num)
  simp [opcodeRows, OpcodeRow.selects, hbyte, hindex, hnone]
  omega

/-- No word lies in the ranges of two rows. -/
theorem rows_C_disjoint : ∀ r ∈ opcodeRows, ∀ r' ∈ opcodeRows, r.format = .C → r'.format = .C →
    r = r' ∨ r.lastWord < r'.value ∨ r'.lastWord < r.value := by decide

theorem filter_eq_row : ∀ r ∈ opcodeRows, opcodeRows.filter (· = r) = [r] := by decide

/-- A word in the range of a row selects that row alone. -/
theorem selectedRows_C_eq_singleton {x : Nat} (hx : x < 2 ^ 14) {r : OpcodeRow} (hr : r ∈ opcodeRows)
    (hf : r.format = .C) (hlo : r.value ≤ x) (hhi : x ≤ r.lastWord) :
    opcodeRows.filter (·.selects .C x) = [r] := by
  rw [← filter_eq_row r hr]
  refine List.filter_congr fun r' hr' => Bool.eq_iff_iff.2 ?_
  rw [selects_C_iff hx r' hr', decide_eq_true_eq]
  constructor
  · rintro ⟨hf', hlo', hhi'⟩
    exact (rows_C_disjoint r' hr' r hr hf' hf).resolve_right (by omega)
  · rintro rfl
    exact ⟨hf, hlo, hhi⟩

/-- The words that select no row are the reserved ones (R104). -/
theorem selectedRows_C_eq_nil_iff (x : BitVec 14) :
    opcodeRows.filter (·.selects .C x.toNat) = [] ↔ (.c x : RawCommand).wellFormed = false := by
  rw [wellFormed_c_eq_false_iff, List.filter_eq_nil_iff,
    forall₂_congr fun r hr => not_congr (selects_C_iff x.isLt r hr)]
  simp [opcodeRows]
  omega

/-- The encoding of a format `C` command lies in the range of the command's row. -/
theorem exists_row_of_encode_eq_c {i : Instr} {x : BitVec 14} (h : encode i = .c x) :
    ∃ r ∈ opcodeRows, r.mnemonic = i.mnemonic ∧ r.format = .C ∧ r.value ≤ x.toNat ∧ x.toNat ≤ r.lastWord := by
  cases i <;> cases h
  case encPush b =>
    have hb := b.isLt
    have hx := toNat_append_eq_add (0b000#3 ++ 0b000#3) b
    exact ⟨_, List.getElem_mem (n := 0) (by decide), rfl, rfl, by simp [opcodeRows] at hx ⊢; omega⟩
  case encEnd => exact ⟨_, List.getElem_mem (n := 1) (by decide), rfl, rfl, by decide⟩
  case decPush k =>
    have hx := toNat_append_eq_add 0b010#3 k
    exact ⟨_, List.getElem_mem (n := 2) (by decide), rfl, rfl, by simp [opcodeRows] at hx ⊢; omega⟩
  case decMiss => exact ⟨_, List.getElem_mem (n := 3) (by decide), rfl, rfl, by decide⟩
  case decEnd => exact ⟨_, List.getElem_mem (n := 4) (by decide), rfl, rfl, by decide⟩
  case tblRd k =>
    have hx := toNat_append_eq_add 0b101#3 k
    exact ⟨_, List.getElem_mem (n := 5) (by decide), rfl, rfl, by simp [opcodeRows] at hx ⊢; omega⟩

/-- The encoding of a format `C` command selects the command's own row alone. -/
theorem selectedRows_of_encode_eq_c {i : Instr} {x : BitVec 14} (h : encode i = .c x) :
    (opcodeRows.filter (·.selects .C x.toNat)).map (·.mnemonic) = [i.mnemonic] := by
  obtain ⟨r, hr, hm, hf, hlo, hhi⟩ := exists_row_of_encode_eq_c h
  rw [selectedRows_C_eq_singleton x.isLt hr hf hlo hhi, List.map_singleton, hm]

/-- The encoding of a format `S` command selects the command's own row alone. -/
theorem selectedRows_of_encode_eq_s {i : Instr} {sop : BitVec 2} {p : Payload} (h : encode i = .s sop p) :
    (opcodeRows.filter (·.selects .S sop.toNat)).map (·.mnemonic) = [i.mnemonic] := by
  cases i <;> cases h <;> rfl

end Sys2Proof
end

section
/-! The statements of the family of spec/30_encoding.md. -/

namespace Sys2Proof.Machine

open Ref

/-- Settles O12: everything the decoder can answer has the sent word as its encoding. -/
theorem decodeAndEncodeAreInverse : Obligations.DecodeAndEncodeAreInverse :=
  fun i c => ⟨by cases i <;> rfl, decode_eq_ok_iff c i⟩

/-- Settles O9: a word that decodes is the encoding of its command, which lies in the range of the command's row alone. -/
theorem decoderFollowsTheOpcodeMap : Obligations.DecoderFollowsTheOpcodeMap := by
  refine ⟨fun x i hd => ?_, fun x => ?_, fun sop p i hd => ?_, fun src w => ⟨rfl, rfl, rfl⟩⟩
  · exact selectedRows_of_encode_eq_c ((decode_eq_ok_iff _ i).1 hd)
  · exact (selectedRows_C_eq_nil_iff x).trans (wellFormed_eq_false_iff_exists_decode_error _)
  · exact selectedRows_of_encode_eq_s ((decode_eq_ok_iff _ i).1 hd)

/-- Settles O11: the ranges are the words that are not well-formed, and these are the ones the decoder refuses. -/
theorem reservedEncodingsAreRefused : Obligations.ReservedEncodingsAreRefused := by
  refine ⟨fun s x rest hi hrange => ?_, fun s p rest hi => ?_, fun x => wellFormed_eq_true_iff_exists_decode _⟩
  · obtain ⟨why, hd⟩ := (wellFormed_eq_false_iff_exists_decode_error _).1 ((wellFormed_c_eq_false_iff x).2 hrange)
    exact ⟨why, stepWith_reserved hi hd⟩
  · exact stepWith_reserved hi rfl

/-- Settles O19: `T(r, v)` is `2^(10 - r) * (2v + 1)`, and every number is a power of two times an odd one in one way. -/
theorem terminatorWordsAreTheNonZeroIndices : Obligations.TerminatorWordsAreTheNonZeroIndices := by
  refine ⟨fun r v hr hv => ⟨terminator_ofNat_toNat hr hv, ?_, ?_⟩, rfl, fun g hpos hlt => ?_⟩
  · rw [← terminator_ofNat_toNat hr hv]
    exact BitVec.isLt _
  · rw [T_eq_two_pow_mul_odd hr]
    positivity
  · obtain ⟨r, v, hr, hv, rfl⟩ := exists_eq_T hpos hlt
    obtain ⟨hset, hclear⟩ := T_testBit hr v
    exact ⟨r, v, ⟨hr, hv, rfl⟩, fun r' v' hr' _ h => T_injective hr' hr h.symm, hset, hclear⟩

/-- Settles O14: each beat is its flag bit above its data bits, and a word equal to no entry makes a miss beat. -/
theorem outputBeatsAsBits : Obligations.OutputBeatsAsBits := by
  refine ⟨fun i => ?_, rfl, fun b => ?_, rfl, fun i => ?_, fun s t w ht habsent => ?_⟩
  · exact (toNat_append_eq_add 0#1 i).trans (by simp)
  · exact (toNat_append_eq_add 0#1 b).trans (by simp)
  · exact (toNat_append_eq_add (BitVec.ofBool true) i).trans (by simp)
  · obtain ⟨-, rfl⟩ := execTblLookup_next.1 ht
    have hnone := (tblFind_eq_none s.rom w).2 habsent
    exact ⟨_, rfl, by rw [tblSub, hnone]; rfl⟩

end Sys2Proof.Machine
end

section
/-! The entries of a table as its words (R12, R122, R126): where they stand in the list, that a valid one is never empty,
and what the pinned entries of the source's vectors are read as and found at. -/

namespace Sys2Proof.Machine

open Ref

variable {W : Type}

/-- `TblRead` answers at every index (R12, R50). -/
theorem getElem?_toList_eq_some_tblRead (t : Table W) (i : Index) : t.toList[i.toNat]? = some (tblRead t i) := by
  rw [tblRead_eq_getElem, ← List.getElem?_eq_getElem]

/-- V2: no index of a valid table reads `EMPTY`. -/
theorem tblRead_ne_empty_of_valid [DecidableEq W] [Inhabited W] {t : Table W} (hv : validWordList t.toList = true)
    (i : Index) : tblRead t i ≠ EMPTY := by
  obtain ⟨-, hnonempty, -⟩ := (validWordList_iff _).1 hv
  exact hnonempty _ (List.mem_of_getElem? (getElem?_toList_eq_some_tblRead t i))

/-- The index of a pinned entry, as the 11 bits the codec speaks of. -/
def pinnedIndex (p : Nat × WORD) : Index := BitVec.ofNat 11 p.1

theorem toNat_pinnedIndex : ∀ p ∈ pinnedEntries, (pinnedIndex p).toNat = p.1 := by decide

theorem tblRead_pinnedIndex {t : Table} (h : sourceWordList t.toList) {p : Nat × WORD} (hp : p ∈ pinnedEntries) :
    tblRead t (pinnedIndex p) = p.2 := by
  obtain ⟨-, hpinned⟩ := h
  rw [← Option.some_inj, ← getElem?_toList_eq_some_tblRead, toNat_pinnedIndex p hp, hpinned p hp]

theorem tblSub_pinned_word {t : Table} (h : sourceWordList t.toList) {p : Nat × WORD} (hp : p ∈ pinnedEntries) :
    tblSub t p.2 = pinnedIndex p := by
  rw [tblSub, (tblFind_eq_some_iff_of_valid h.1 p.2 _).2 (tblRead_pinnedIndex h hp), Option.getD_some]

/-- A message whose indices are pinned is encoded to their words. -/
theorem encodeWords_eq_pinned_words {t : Table} (h : sourceWordList t.toList) {d : List Byte}
    {ps : List (Nat × WORD)} (hps : ps ⊆ pinnedEntries) (hidx : encodeIdx d = ps.map pinnedIndex) :
    encodeWords t d = ps.map Prod.snd := by
  rw [encodeWords, hidx, List.map_map]
  exact List.map_congr_left fun p hp => tblRead_pinnedIndex h (hps hp)

/-- `sub` of R161 finds every pinned word at its index. -/
theorem map_tblSub_pinned_words {t : Table} (h : sourceWordList t.toList) {ps : List (Nat × WORD)}
    (hps : ps ⊆ pinnedEntries) : (ps.map Prod.snd).map (tblSub t) = ps.map pinnedIndex := by
  rw [List.map_map]
  exact List.map_congr_left fun p hp => tblSub_pinned_word h (hps hp)

/-- The entries of the source's fifth vector, the one that is decoded too (spec/95_test_vectors.md). -/
def fourByteVector : List (Nat × WORD) :=
  [(1781, .ofString "toilette"), (879, .ofString "hygiene"), (1503, .ofString "riegel")]

/-- R161: a word the table does not hold stands for the miss index. -/
theorem tblSub_eq_missIdx [DecidableEq W] {t : Table W} {w : W} (hw : ∀ i, tblRead t i ≠ w) :
    tblSub t w = MISS_IDX := by
  rw [tblSub, (tblFind_eq_none t w).2 hw, Option.getD_none]

end Sys2Proof.Machine
end

section
/-! What the table's commands leave unchanged (R120). -/

namespace Sys2Proof.Machine

/-- R120: a command of neither unit leaves both units, their streams and the input alone. -/
theorem exec_tableCommand_keeps_units {i : Instr} {s t : State} (henc : isEncCommand i = false)
    (hdec : isDecCommand i = false) (ht : exec i s = .next t) :
    t.enc = s.enc ∧ t.dec = s.dec ∧ t.encOut = s.encOut ∧ t.decOut = s.decOut ∧ t.input = s.input := by
  cases i with
  | encPush | encEnd => nomatch henc
  | decPush | decMiss | decEnd | decWord => nomatch hdec
  | tblRd k =>
    obtain ⟨-, rfl⟩ := execTblRd_next.1 ht
    exact ⟨rfl, rfl, rfl, rfl, rfl⟩
  | tblLookup w =>
    obtain ⟨-, rfl⟩ := execTblLookup_next.1 ht
    exact ⟨rfl, rfl, rfl, rfl, rfl⟩
  | tblLoad src =>
    obtain ⟨-, ⟨rom, -, rfl⟩ | ⟨-, rfl⟩⟩ := execTblLoad_next ht <;> exact ⟨rfl, rfl, rfl, rfl, rfl⟩

end Sys2Proof.Machine
end

section
/-! The statements of the family of spec/40_wordlist_table.md. -/

namespace Sys2Proof.Machine

open Ref

/-- Settles O35: the load follows the validity test, and the table it stores lists exactly `src`. -/
theorem tblLoadStoresAValidListOrHalts : Obligations.TblLoadStoresAValidListOrHalts := by
  refine ⟨fun src => decode_encode (.tblLoad src), fun src s hm => execTblLoad_refused src hm,
    fun src s hm hv => ?valid, fun src s hm hv => ?invalid⟩
  case valid =>
    obtain ⟨rom, ht, rfl⟩ := exists_tableOf_eq_some hv
    exact ⟨rom, execTblLoad_of_tableOf_eq_some hm ht, getElem?_toList_eq_some_tblRead rom⟩
  case invalid =>
    exact ⟨_, _, execTblLoad_of_tableOf_eq_none hm (tableOf_eq_none_of_not_validList hv)⟩

/-- Settles O38: in a valid table the lookup finds the one entry equal to the word, and `EMPTY` equals none (V2). -/
theorem tblLookupReportsHitOrMiss : Obligations.TblLookupReportsHitOrMiss := by
  refine ⟨fun w => decode_encode (.tblLookup w), fun w s hm => execTblLookup_refused w hm,
    fun w s hm hrom => ⟨fun i hi => ?hit, fun hw => ?miss, fun hempty => ?empty⟩⟩
  case hit => exact execTblLookup_of_tblFind_eq_some hm ((tblFind_eq_some_iff_of_valid (hrom hm) w i).2 hi)
  case miss => exact execTblLookup_of_tblFind_eq_none hm ((tblFind_eq_none s.rom w).2 hw)
  case empty => exact hempty ▸ tblRead_ne_empty_of_valid (hrom hm)

/-- Settles O39: in a valid table the index found is the one that reads the word, which gives L1 and L2. -/
theorem lookupLaws : Obligations.LookupLaws := by
  intro W _ _ t hvalid
  have hfind := tblFind_eq_some_iff_of_valid ((validList_iff_validWordList t.toList).1 hvalid)
  exact ⟨fun i => (hfind (tblRead t i) i).2 rfl, fun w i => (hfind w i).1, tblFind_eq_none t⟩

/-- Settles O40: a table command changes the mode and the table or appends one beat, and the two lookups keep all that
they read. -/
theorem tableCommandsFrame : Obligations.TableCommandsFrame := by
  refine ⟨fun i s t henc hdec ht => exec_tableCommand_keeps_units henc hdec ht, fun k s t ht => ?read,
    fun w s t ht => ?lookup, fun src s t ht => ?load⟩
  case read =>
    obtain ⟨hm, rfl⟩ := execTblRd_next.1 ht
    exact ⟨rfl, fun _ => rfl, rfl, rfl, execTblRd_next.2 ⟨hm, rfl⟩⟩
  case lookup =>
    obtain ⟨hm, rfl⟩ := execTblLookup_next.1 ht
    exact ⟨rfl, fun _ => rfl, rfl, rfl, _, rfl, execTblLookup_next.2 ⟨hm, rfl⟩⟩
  case load =>
    obtain ⟨-, ⟨rom, -, rfl⟩ | ⟨-, rfl⟩⟩ := execTblLoad_next ht <;> exact ⟨rfl, rfl⟩

/-- Settles O42: the vectors' indices are computed, and the pinned entries turn them into words and back; the unknown
word of U3 stands for the miss index. -/
theorem sourceVectors : Obligations.SourceVectors := by
  intro t h
  refine ⟨?_, ?_, ?_, ?_, ?_, ?_, fun w hw => ?_⟩
  · exact encodeWords_eq_pinned_words h (ps := [(4, .ofString "abend")]) (by decide) (by decide)
  · exact encodeWords_eq_pinned_words h (ps := [(12, .ofString "ablehnen")]) (by decide) (by decide)
  · exact encodeWords_eq_pinned_words h (ps := [(2044, .ofString "zwilling")]) (by decide) (by decide)
  · exact encodeWords_eq_pinned_words h (ps := [(2047, .ofString "zyklus"), (2016, .ofString "ziffer")])
      (by decide) (by decide)
  · exact encodeWords_eq_pinned_words h (ps := fourByteVector) (by decide) (by decide)
  · have hsub := map_tblSub_pinned_words h (ps := fourByteVector) (by decide)
    exact (congrArg decodeIdx hsub).trans (by decide)
  · have habend : tblSub t (.ofString "abend") = 4#11 := tblSub_pinned_word h (p := (4, .ofString "abend")) (by decide)
    rw [decodeWords, List.map_cons, List.map_singleton, habend, tblSub_eq_missIdx hw]
    decide

/-- Settles O37, by the equation of `TBL.RD` in each mode. -/
theorem tblRdReturnsTheWordAtTheIndex : Obligations.TblRdReturnsTheWordAtTheIndex := by
  refine ⟨fun i => decode_encode (.tblRd i), fun i s hm => execTblRd_refused i hm, fun i s hm => ?_⟩
  exact ⟨tblRead s.rom i, getElem?_toList_eq_some_tblRead s.rom i, execTblRd_next.2 ⟨hm, rfl⟩⟩

end Sys2Proof.Machine
end

section
/-! Bit strings and the groups they are cut into determine one another (R14, R52, R53). -/

namespace Sys2Proof.Machine.Ref

/-- A word is the number it stands for, put into its width. -/
theorem eq_ofNat_of_toNat_eq {w : Nat} {x : BitVec w} {k : Nat} (h : x.toNat = k) : x = BitVec.ofNat w k := by
  rw [← h, BitVec.ofNat_toNat, BitVec.setWidth_eq]

/-- Bit strings of one length are told apart by the numbers they write. -/
theorem eq_of_valueOf_eq {l m : List Bool} (hlen : l.length = m.length) (h : valueOf l = valueOf m) : l = m := by
  induction l generalizing m with
  | nil => exact (List.length_eq_zero_iff.1 hlen.symm).symm
  | cons b l ih =>
    obtain _ | ⟨c, m⟩ := m
    · cases hlen
    · have hhead := valueOf_take (b :: l) 1
      have htail := valueOf_drop (b :: l) 1
      rw [h, hlen, ← valueOf_take] at hhead
      rw [h, hlen, ← valueOf_drop] at htail
      have hbit : b = c := Function.LeftInverse.injective Bool.ofNat_toNat (by simpa [valueOf] using hhead)
      rw [hbit, ih (Nat.succ.inj hlen) htail]

theorem toNat_ofNat_valueOf {n : Nat} {l : List Bool} (h : l.length = n) :
    (BitVec.ofNat n (valueOf l)).toNat = valueOf l :=
  BitVec.toNat_ofNat (valueOf l) n ▸ Nat.mod_eq_of_lt (h ▸ valueOf_lt l)

/-- Eleven bits are the bits of the index they write (R53). -/
theorem indexBits_ofNat_valueOf {l : List Bool} (h : l.length = 11) :
    indexBits (BitVec.ofNat 11 (valueOf l)) = l :=
  eq_of_valueOf_eq (by rw [length_indexBits, h]) (by rw [valueOf_indexBits, toNat_ofNat_valueOf h])

/-- A bit string is its complete groups of 11 and the bits left over. -/
theorem bitsOfIndices_fullGroups_append_leftover (bits : List Bool) :
    bitsOfIndices (fullGroups 11 bits) ++ leftover 11 bits = bits := by
  by_cases h : bits.length < 11
  · simp [fullGroups_of_length_lt h, leftover_of_length_lt h, bitsOfIndices]
  · have hle : 11 ≤ bits.length := Nat.le_of_not_lt h
    have ih := bitsOfIndices_fullGroups_append_leftover (bits.drop 11)
    rw [fullGroups_of_le_length (by norm_num) hle, leftover_of_le_length (by norm_num) hle, bitsOfIndices_cons,
      List.append_assoc, ih, indexBits_ofNat_valueOf (by simpa using hle), List.take_append_drop]
termination_by bits.length
decreasing_by simp; omega

/-- The bits of a byte sequence, cut into groups of 8, are the sequence (R52). -/
theorem fullGroups_bitsOfBytes (d : List Byte) : fullGroups 8 (bitsOfBytes d) = d := by
  induction d with
  | nil => rfl
  | cons b d ih =>
    have hlen : (byteBits b).length = 8 := length_byteBits b
    rw [bitsOfBytes_cons, fullGroups_of_le_length (by norm_num) (by simp), List.take_left' hlen, List.drop_left' hlen,
      ih, ← eq_ofNat_of_toNat_eq (valueOf_byteBits b).symm]

theorem bitsOfBytes_injective : Function.Injective bitsOfBytes :=
  Function.LeftInverse.injective fullGroups_bitsOfBytes

end Sys2Proof.Machine.Ref
end

section
/-! The words of a message (R140) over its bit string: the complete groups of 11, and the terminator word made of the bits
left over. -/

namespace Sys2Proof.Machine.Ref

/-- The terminator word that stands for the leftover bits `l` (R86). -/
def terminatorWord (l : List Bool) : Index := BitVec.ofNat 11 (T l.length (valueOf l))

theorem encodeIdx_nil : encodeIdx [] = [] := rfl

theorem encodeIdx_of_ne_nil {d : List Byte} (hd : d ≠ []) :
    encodeIdx d = fullGroups 11 (bitsOfBytes d) ++ [terminatorWord (leftover 11 (bitsOfBytes d))] := by
  rw [encodeIdx, if_neg hd, terminatorWord, length_leftover, fullGroups, leftover, length_bitsOfBytes]

theorem length_leftover_eleven_le (bits : List Bool) : (leftover 11 bits).length ≤ 10 := by
  rw [length_leftover]; omega

/-- The terminator word of the machine, of the registers that hold `l` (R143). -/
theorem terminator_eq_terminatorWord {acc : Acc} {cnt : Cnt} {l : List Bool} (h : Buffers acc cnt l)
    (hl : l.length ≤ 10) : terminator acc cnt = terminatorWord l := by
  apply eq_ofNat_of_toNat_eq
  rw [eq_ofNat_of_toNat_eq h.acc_toNat, eq_ofNat_of_toNat_eq h.cnt_toNat, terminator_ofNat_toNat hl (valueOf_lt l)]

theorem toNat_terminatorWord {l : List Bool} (hl : l.length ≤ 10) :
    (terminatorWord l).toNat = T l.length (valueOf l) := by
  have hlt := (terminator (BitVec.ofNat 18 (valueOf l)) (BitVec.ofNat 5 l.length)).isLt
  rw [terminator_ofNat_toNat hl (valueOf_lt l)] at hlt
  rw [terminatorWord, BitVec.toNat_ofNat, Nat.mod_eq_of_lt hlt]

theorem terminatorWord_ne_zero {l : List Bool} (hl : l.length ≤ 10) : terminatorWord l ≠ 0#11 := by
  intro hzero
  have hT := toNat_terminatorWord hl
  rw [hzero, T_eq_two_pow_mul_odd hl] at hT
  exact absurd hT (by simp)

/-- R87: the terminator word tells how many bits were left over and which. -/
theorem eq_of_terminatorWord_eq {l m : List Bool} (hl : l.length ≤ 10) (hm : m.length ≤ 10)
    (h : terminatorWord l = terminatorWord m) : l = m := by
  have hT : T l.length (valueOf l) = T m.length (valueOf m) := by
    rw [← toNat_terminatorWord hl, h, toNat_terminatorWord hm]
  obtain ⟨hlen, hval⟩ := T_injective hl hm hT
  exact eq_of_valueOf_eq hlen hval

theorem length_encodeIdx (d : List Byte) : (encodeIdx d).length = wordCount d.length := by
  by_cases hd : d = []
  · subst hd; rfl
  · rw [encodeIdx_of_ne_nil hd, wordCount, if_neg (mt List.length_eq_zero_iff.1 hd)]
    simp

theorem encodeIdx_eq_nil_iff (d : List Byte) : encodeIdx d = [] ↔ d = [] := by
  refine ⟨fun h => ?_, fun h => h ▸ encodeIdx_nil⟩
  by_contra hd
  rw [encodeIdx_of_ne_nil hd] at h
  exact List.append_ne_nil_of_right_ne_nil _ (List.cons_ne_nil _ _) h

theorem getLast?_encodeIdx {d : List Byte} (hd : d ≠ []) :
    (encodeIdx d).getLast? = some (terminatorWord (leftover 11 (bitsOfBytes d))) := by
  rw [encodeIdx_of_ne_nil hd, List.getLast?_concat]

/-- The words but the terminator are the complete groups. -/
theorem take_encodeIdx (d : List Byte) : (encodeIdx d).take (8 * d.length / 11) = fullGroups 11 (bitsOfBytes d) := by
  by_cases hd : d = []
  · subst hd; rfl
  · rw [encodeIdx_of_ne_nil hd, List.take_left' (by simp)]

theorem fullGroups_prefix_encodeIdx (d : List Byte) : fullGroups 11 (bitsOfBytes d) <+: encodeIdx d :=
  take_encodeIdx d ▸ List.take_prefix _ _

/-- Groups that are complete stay what they are when bytes follow (R146 (e)). -/
theorem fullGroups_bitsOfBytes_append_prefix (d e : List Byte) :
    fullGroups 11 (bitsOfBytes d) <+: fullGroups 11 (bitsOfBytes (d ++ e)) := by
  rw [bitsOfBytes, bitsOfBytes, List.flatMap_append, fullGroups_append (by norm_num)]
  exact List.prefix_append _ _

/-- R146 (d): the complete groups and the leftover bits can be read off the words, and they are the message's bits. -/
theorem encodeIdx_injective : Function.Injective encodeIdx := by
  intro d e h
  by_cases hd : d = []
  · subst hd
    exact ((encodeIdx_eq_nil_iff e).1 (h ▸ encodeIdx_nil)).symm
  · have he : e ≠ [] := fun he => hd ((encodeIdx_eq_nil_iff d).1 (h.trans ((encodeIdx_eq_nil_iff e).2 he)))
    rw [encodeIdx_of_ne_nil hd, encodeIdx_of_ne_nil he] at h
    obtain ⟨hgroups, hterm⟩ := List.append_inj' h rfl
    have hleft : leftover 11 (bitsOfBytes d) = leftover 11 (bitsOfBytes e) :=
      eq_of_terminatorWord_eq (length_leftover_eleven_le _) (length_leftover_eleven_le _) (List.singleton_inj.1 hterm)
    apply bitsOfBytes_injective
    rw [← bitsOfIndices_fullGroups_append_leftover (bitsOfBytes d), hgroups, hleft,
      bitsOfIndices_fullGroups_append_leftover]

end Sys2Proof.Machine.Ref
end

section
/-! The encoder's commands in numbers, and the run of one encoder message (R142, R143, R144). -/

namespace Sys2Proof.Machine

open Ref

theorem appendByte_eq_ofNat {acc : Acc} (b : Byte) (h : acc.toNat < 2 ^ 10) :
    appendByte acc b = BitVec.ofNat 18 (acc.toNat * 256 + b.toNat) :=
  eq_ofNat_of_toNat_eq (appendByte_toNat b h)

theorem keepLow_eq_ofNat (acc : Acc) {rest : Cnt} (h : rest.toNat ≤ 18) :
    keepLow acc rest = BitVec.ofNat 18 (acc.toNat % 2 ^ rest.toNat) :=
  eq_ofNat_of_toNat_eq (keepLow_toNat acc h)

theorem topIndex_eq_ofNat (acc : Acc) (rest : Cnt) :
    topIndex acc rest = BitVec.ofNat 11 (acc.toNat / 2 ^ rest.toNat) := by
  apply BitVec.eq_of_toNat_eq
  rw [topIndex_toNat, BitVec.toNat_ofNat]

theorem EncUnit.Inv.acc_lt {e : EncUnit} (h : e.Inv) : e.acc.toNat < 2 ^ 10 := by
  obtain ⟨hcnt, hacc, -⟩ := h
  exact hacc.trans_le (Nat.pow_le_pow_right two_pos hcnt)

/-- R142 in numbers, when no word is complete. -/
theorem encPushUnit_eq_of_cnt_le_two (b : Byte) {e : EncUnit} (h : e.Inv) (hc : e.cnt.toNat ≤ 2) :
    encPushUnit b e =
      (⟨BitVec.ofNat 18 (e.acc.toNat * 256 + b.toNat), BitVec.ofNat 5 (e.cnt.toNat + 8), true⟩, []) := by
  have hcnt : e.cnt + 8#5 = BitVec.ofNat 5 (e.cnt.toNat + 8) := by simp [BitVec.ofNat_add]
  rw [encPushUnit_noWord b hc, appendByte_eq_ofNat b h.acc_lt, hcnt]

/-- R142 in numbers, when a word is complete. -/
theorem encPushUnit_eq_of_three_le_cnt (b : Byte) {e : EncUnit} (h : e.Inv) (hc : 3 ≤ e.cnt.toNat) :
    let a := e.acc.toNat * 256 + b.toNat
    encPushUnit b e =
      (⟨BitVec.ofNat 18 (a % 2 ^ (e.cnt.toNat - 3)), BitVec.ofNat 5 (e.cnt.toNat - 3), true⟩,
        [.W (BitVec.ofNat 11 (a / 2 ^ (e.cnt.toNat - 3)))]) := by
  have hrest : (e.cnt - 3#5).toNat = e.cnt.toNat - 3 := BitVec.toNat_sub_of_le (by rw [BitVec.le_def]; exact hc)
  have hle : e.cnt.toNat ≤ 10 := h.1
  rw [encPushUnit_word b hc hle, keepLow_eq_ofNat _ (by omega), topIndex_eq_ofNat, appendByte_toNat b h.acc_lt, hrest,
    eq_ofNat_of_toNat_eq hrest]

/-- R145: the word that a push emits fits into 11 bits. -/
theorem appended_div_lt {acc c b : Nat} (hacc : acc < 2 ^ c) (hb : b < 256) (hc : 3 ≤ c) :
    (acc * 256 + b) / 2 ^ (c - 3) < 2048 := by
  have hsplit : 2 ^ c = 8 * 2 ^ (c - 3) := by
    rw [show (8 : Nat) = 2 ^ 3 by norm_num, ← pow_add, Nat.add_sub_cancel' hc]
  rw [Nat.div_lt_iff_lt_mul (by positivity)]
  omega

theorem terminator_eq_ofNat {acc : Acc} {r : Cnt} (hr : r.toNat ≤ 10) (h : acc.toNat < 2 ^ r.toNat) :
    terminator acc r = BitVec.ofNat 11 (acc.toNat * 2 ^ (11 - r.toNat) + 2 ^ (10 - r.toNat)) :=
  eq_ofNat_of_toNat_eq (terminator_toNat hr h)

/-! The three cases of `ENC.END` (R143) -/

theorem encEndBeats_of_cnt_pos {e : EncUnit} (h : 0 < e.cnt.toNat) :
    encEndBeats e = [.W (terminator e.acc e.cnt), .EOM] :=
  if_pos fun hzero => by rw [hzero] at h; exact absurd h (by decide)

theorem encEndBeats_of_cnt_eq_zero_of_any {e : EncUnit} (h : e.cnt.toNat = 0) (hany : e.any = true) :
    encEndBeats e = [.W 1024#11, .EOM] := by
  have hcnt : e.cnt = 0#5 := BitVec.eq_of_toNat_eq h
  simp [encEndBeats, hcnt, hany, TERM_EXACT]

theorem encEndBeats_of_cnt_eq_zero_of_not_any {e : EncUnit} (h : e.cnt.toNat = 0) (hany : e.any = false) :
    encEndBeats e = [.EOM] := by
  have hcnt : e.cnt = 0#5 := BitVec.eq_of_toNat_eq h
  simp [encEndBeats, hcnt, hany]

/-- R143 on bit strings: after at least one byte the terminator word of the bits held comes out, in both of its cases. -/
theorem encEndBeats_of_any {e : EncUnit} {l : List Bool} (h : Buffers e.acc e.cnt l) (hl : l.length ≤ 10)
    (hany : e.any = true) : encEndBeats e = [.W (terminatorWord l), .EOM] := by
  rcases Nat.eq_zero_or_pos e.cnt.toNat with hzero | hpos
  · have hnil : l = [] := List.length_eq_zero_iff.1 (h.cnt_toNat ▸ hzero)
    rw [encEndBeats_of_cnt_eq_zero_of_any hzero hany, hnil]
    rfl
  · rw [encEndBeats_of_cnt_pos hpos, terminator_eq_terminatorWord h hl]

theorem step_encEnd {s : State} {rest : List HostEvent} (hm : s.mode = .ready)
    (hi : s.input = Trace.command .encEnd :: rest) :
    step s = .next { s with enc := .init, encOut := s.encOut ++ encEndBeats s.enc, input := rest } :=
  (step_command hi).trans (execEncEnd_next.2 ⟨hm, rfl⟩)

/-- A run goes on from where a shorter one ends. -/
theorem run_add_of_run {m : Nat} {s t : State} (h : Host.Core.run Sys2Proof.core m s = .next t) (n : Nat) :
    Host.Core.run Sys2Proof.core (m + n) s = Host.Core.run Sys2Proof.core n t := by
  induction m generalizing s with
  | zero =>
    obtain rfl : s = t := Host.Outcome.next.inj h
    rw [Nat.zero_add]
  | succ m ih =>
    rw [Nat.add_right_comm]
    simp only [Host.Core.run] at h ⊢
    cases hstep : Sys2Proof.core.step s with
    | next s' =>
      rw [hstep] at h
      exact ih h
    | fault | refused =>
      rw [hstep] at h
      cases h

theorem run_succ_of_run {m : Nat} {s t u : State} (h : Host.Core.run Sys2Proof.core m s = .next t)
    (hstep : step t = .next u) : Host.Core.run Sys2Proof.core (m + 1) s = .next u :=
  (run_add_of_run h 1).trans (run_succ_of_step hstep 0)

/-- The last step of a message: `ENC.END` from the encoder that the pushes of `d` leave (R144). -/
theorem map_fullGroups_append_encEndBeats {d : List Byte} {e : EncUnit}
    (hbuf : Buffers e.acc e.cnt (leftover 11 (bitsOfBytes d))) (hany : e.any = !d.isEmpty) :
    (fullGroups 11 (bitsOfBytes d)).map .W ++ encEndBeats e = (encodeIdx d).map .W ++ [.EOM] := by
  by_cases hd : d = []
  · subst hd
    have hzero : e.cnt.toNat = 0 := hbuf.cnt_toNat
    rw [encEndBeats_of_cnt_eq_zero_of_not_any hzero hany]
    rfl
  · have hpushed : e.any = true := by simp [hany, hd]
    rw [encEndBeats_of_any hbuf (length_leftover_eleven_le _) hpushed, encodeIdx_of_ne_nil hd, List.map_append,
      List.append_assoc]
    rfl

end Sys2Proof.Machine
end

section
/-! The statements of the family of spec/41_encoder.md. -/

namespace Sys2Proof.Machine

open Ref

/-- Settles O21: the pushes cut the message's bits into groups of 11, and `ENC.END` adds the terminator word of the bits
left over. -/
theorem encoderMessageEqualsEncodeIdx : Obligations.EncoderMessageEqualsEncodeIdx := by
  intro d s rest hm henc hi
  have hbuf : Buffers s.enc.acc s.enc.cnt [] := henc ▸ buffers_nil
  rw [Trace.encMsg, List.append_assoc] at hi
  obtain ⟨e, hrun, hbuf', hany⟩ := run_encPushes d hm hbuf (Nat.zero_le _) hi
  rw [List.nil_append] at hrun hbuf'
  rw [henc, EncUnit.init_any, Bool.false_or] at hany
  refine (run_succ_of_run hrun (step_encEnd hm rfl)).trans ?_
  rw [List.append_assoc, map_fullGroups_append_encEndBeats hbuf' hany, ← henc]
  rfl

/-- Settles O16, by the two cases of a push in numbers. -/
theorem encPushAppendsAByteAndEmitsAWordAtElevenBits : Obligations.EncPushAppendsAByteAndEmitsAWordAtElevenBits := by
  refine ⟨fun b => decode_encode (.encPush b), fun b s hm => execEncPush_refused b hm, fun b s hm hinv => ?_⟩
  have hb : b.toNat < 256 := b.isLt
  have hacc := hinv.acc_lt
  obtain ⟨-, hacc_cnt, -⟩ := id hinv
  refine ⟨by omega, fun hc => ?noWord, fun hc => ⟨appended_div_lt hacc_cnt hb hc, ?word⟩⟩
  case noWord =>
    refine execEncPush_next.2 ⟨hm, ?_⟩
    rw [encPushUnit_eq_of_cnt_le_two b hinv hc]
    simp [State.emitEnc, State.setEnc]
  case word =>
    refine execEncPush_next.2 ⟨hm, ?_⟩
    rw [encPushUnit_eq_of_three_le_cnt b hinv hc]
    rfl

/-- Settles O17, by the three cases of the beats. -/
theorem encEndEmitsTheTerminatorAndClearsTheUnit : Obligations.EncEndEmitsTheTerminatorAndClearsTheUnit := by
  refine ⟨decode_encode .encEnd, fun s hm => execEncEnd_refused hm, fun s hm hinv => ?_⟩
  obtain ⟨hcnt, hacc, -⟩ := hinv
  refine ⟨fun hpos => ⟨?bound, ?leftover⟩, fun hzero hany => ?exact, fun hzero hany => ?empty⟩
  case bound => exact terminator_toNat hcnt hacc ▸ (terminator s.enc.acc s.enc.cnt).isLt
  case leftover =>
    rw [← terminator_eq_ofNat hcnt hacc, ← encEndBeats_of_cnt_pos hpos]
    exact execEncEnd_next.2 ⟨hm, rfl⟩
  case exact =>
    rw [← encEndBeats_of_cnt_eq_zero_of_any hzero hany]
    exact execEncEnd_next.2 ⟨hm, rfl⟩
  case empty =>
    rw [← encEndBeats_of_cnt_eq_zero_of_not_any hzero hany]
    exact execEncEnd_next.2 ⟨hm, rfl⟩

/-- Settles O22: the words are the complete groups and a terminator word, which is never 0 and from which the leftover
bits can be read. -/
theorem encodedMessageProperties : Obligations.EncodedMessageProperties := by
  refine ⟨length_encodeIdx, fun d hd => ?last, fun d hd hexact => ?boundary, fun d e h => encodeIdx_injective h,
    fun d e => ?start⟩
  case last => exact ⟨_, getLast?_encodeIdx hd, terminatorWord_ne_zero (length_leftover_eleven_le _)⟩
  case boundary =>
    have hnil : leftover 11 (bitsOfBytes d) = [] := by
      rw [← List.length_eq_zero_iff, length_leftover, length_bitsOfBytes, hexact]
    rw [getLast?_encodeIdx hd, hnil]
    rfl
  case start =>
    rw [take_encodeIdx]
    exact (fullGroups_bitsOfBytes_append_prefix d e).trans (fullGroups_prefix_encodeIdx (d ++ e))

end Sys2Proof.Machine
end

section
/-! The decoder's commands one by one: `DEC.PUSH` in numbers (R162, R167), the commands that are a push of another name
(R163, R164), and the cases of `DEC.END` (R165). -/

namespace Sys2Proof.Machine

open Ref

theorem appendIndex_eq_ofNat {acc : Acc} (i : Index) (h : acc.toNat < 2 ^ 7) :
    appendIndex acc i = BitVec.ofNat 18 (acc.toNat * 2048 + i.toNat) :=
  eq_ofNat_of_toNat_eq (appendIndex_toNat i h)

theorem topByte_eq_ofNat (acc : Acc) (rest : Cnt) :
    topByte acc rest = BitVec.ofNat 8 (acc.toNat / 2 ^ rest.toNat) := by
  apply BitVec.eq_of_toNat_eq
  rw [topByte_toNat, BitVec.toNat_ofNat]

theorem DecUnit.Inv.acc_lt {d : DecUnit} (h : d.Inv) : d.acc.toNat < 2 ^ 7 := by
  obtain ⟨hcnt, hacc, -⟩ := h
  exact hacc.trans_le (Nat.pow_le_pow_right two_pos hcnt)

/-- R167: the first byte that a push extracts fits into 8 bits. -/
theorem appendedIndex_div_lt {acc c i : Nat} (hacc : acc < 2 ^ c) (hi : i < 2048) :
    (acc * 2048 + i) / 2 ^ (c + 3) < 256 := by
  rw [Nat.div_lt_iff_lt_mul (by positivity), pow_add]
  omega

/-- R162 in numbers, with one pass. -/
theorem decPushUnit_eq_of_cnt_le_four (i : Index) {d : DecUnit} (h : d.Inv) (hc : d.cnt.toNat ≤ 4) :
    let a := d.acc.toNat * 2048 + i.toNat
    let c := d.cnt.toNat
    decPushUnit i d =
      (⟨BitVec.ofNat 18 (a % 2 ^ (c + 3)), BitVec.ofNat 5 (c + 3), BitVec.ofNat 8 (a / 2 ^ (c + 3)), true⟩,
        heldBeats d) := by
  have hrest : (d.cnt + 3#5).toNat = d.cnt.toNat + 3 := by rw [BitVec.toNat_add]; simp; omega
  rw [decPushUnit_onePass i hc, keepLow_eq_ofNat _ (by omega), topByte_eq_ofNat, appendIndex_toNat i h.acc_lt, hrest,
    eq_ofNat_of_toNat_eq hrest]

/-- R162 in numbers, with two passes. -/
theorem decPushUnit_eq_of_five_le_cnt (i : Index) {d : DecUnit} (h : d.Inv) (hc : 5 ≤ d.cnt.toNat) :
    let a := d.acc.toNat * 2048 + i.toNat
    let c := d.cnt.toNat
    decPushUnit i d =
      (⟨BitVec.ofNat 18 (a % 2 ^ (c - 5)), BitVec.ofNat 5 (c - 5), BitVec.ofNat 8 (a / 2 ^ (c - 5) % 256), true⟩,
        heldBeats d ++ [.B (BitVec.ofNat 8 (a / 2 ^ (c + 3)))]) := by
  intro a c
  have hle : c ≤ 7 := h.1
  have hfirst : (d.cnt + 3#5).toNat = c + 3 := by rw [BitVec.toNat_add]; simp; omega
  have hrest : (d.cnt - 5#5).toNat = c - 5 := BitVec.toNat_sub_of_le (by rw [BitVec.le_def]; exact hc)
  have hsplit : 2 ^ (c + 3) = 2 ^ (c - 5) * 256 := by
    rw [show c + 3 = c - 5 + 8 by omega, pow_add]; rfl
  have hkept : (keepLow (appendIndex d.acc i) (d.cnt + 3#5)).toNat = a % (2 ^ (c - 5) * 256) := by
    rw [keepLow_toNat _ (by omega), appendIndex_toNat i h.acc_lt, hfirst, hsplit]
  rw [decPushUnit_twoPasses i hc hle, keepLow_eq_ofNat _ (rest := d.cnt - 5#5) (by omega), topByte_eq_ofNat,
    topByte_eq_ofNat, hkept, appendIndex_toNat i h.acc_lt, hfirst, hrest, eq_ofNat_of_toNat_eq hrest,
    Nat.mod_mul_right_mod, Nat.mod_mul_right_div_self]

/-- R163, R170: `DEC.MISS` is the push of eleven `1` bits. -/
theorem exec_decMiss_eq_exec_decPush (s : State) : exec .decMiss s = exec (.decPush 2047#11) s := rfl

/-- R164: to push what a lookup answers, the index of a hit or the miss index, is to push `sub(w)`. -/
theorem exec_lookup_answer (t : Table) (w : WORD) (s : State) :
    exec (if (tblFind t w).isSome then .decPush (tblSub t w) else .decMiss) s = exec (.decPush (tblSub t w)) s := by
  unfold tblSub
  cases tblFind t w <;> rfl

/-- The three cases of `DEC.END`'s beats (R165): nothing held, stripped, released. -/
theorem decEndBeats_eq (d : DecUnit) : decEndBeats d =
    if d.hv = false then [.EOM] else if d.acc.toNat = 0 ∧ d.hold.toNat = 128 then [.EOM] else [.B d.hold, .EOM] := by
  cases hhv : d.hv with
  | false => rw [decEndBeats_empty hhv, if_pos rfl]
  | true =>
    rw [decEndBeats_eq_map_released, DecUnit.released, DecUnit.held_of_hv hhv]
    simp only [DecUnit.strips_iff, Bool.true_eq_false, if_false]
    split <;> rfl

end Sys2Proof.Machine
end

section
/-! One decoder message on the machine (R166): any commands that push, whatever index each takes, run as the pushes of
these indices, and `DEC.END` releases what `decode_idx` has as its last byte. -/

namespace Sys2Proof.Machine

open Ref

/-- Commands that each act as a push run as the pushes: `k` is the index that a command takes, which may depend on the
table. -/
theorem run_eq_run_decPushes {α : Type} (f : α → Instr) (k : Table → α → Index)
    (hf : ∀ a s, exec (f a) s = exec (.decPush (k s.rom a)) s) (as : List α) {s : State} {rest : List HostEvent}
    (hm : s.mode = .ready) (hi : s.input = as.map (fun a => Trace.command (f a)) ++ rest) :
    Host.Core.run Sys2Proof.core as.length s = Host.Core.run Sys2Proof.core as.length
      { s with input := (as.map (k s.rom)).map (fun i => Trace.command (.decPush i)) ++ rest } := by
  induction as generalizing s with
  | nil =>
    simp only [List.map_nil, List.nil_append] at hi ⊢
    rw [← hi]
  | cons a as ih =>
    have hpush (q : List HostEvent) := exec_decPush_of_ready (s := { s with input := q }) hm (k s.rom a)
    have hstep := (step_command hi).trans ((hf a _).trans (hpush _))
    have hstep' := (step_command (s := { s with
        input := ((a :: as).map (k s.rom)).map (fun i => Trace.command (.decPush i)) ++ rest }) rfl).trans (hpush _)
    rw [List.length_cons, run_succ_of_step hstep, run_succ_of_step hstep']
    exact ih hm rfl

/-- The command of R108 for an element of an index message: `none` stands for a miss. -/
def pushOrMiss : Option Index → Instr
  | some i => .decPush i
  | none => .decMiss

theorem decIdx_eq_map_pushOrMiss (x : List (Option Index)) : (Trace.decIdx x : List HostEvent) =
    x.map (fun o => Trace.command (pushOrMiss o)) ++ [Trace.command .decEnd] := rfl

theorem exec_pushOrMiss (o : Option Index) (s : State) :
    exec (pushOrMiss o) s = exec (.decPush (o.getD 2047#11)) s := by
  cases o with
  | some i => rfl
  | none => exact exec_decMiss_eq_exec_decPush s

theorem step_decEnd {s : State} {rest : List HostEvent} (hm : s.mode = .ready)
    (hi : s.input = Trace.command .decEnd :: rest) : step s = .next (decEndBody { s with input := rest }) :=
  (step_command hi).trans (exec_decEnd_of_ready hm)

/-- The strip of `DEC.END` is the strip of `decode_idx` (R160, R165): the held byte is the last of the complete bytes,
and the accumulator holds the tail. -/
theorem append_released_eq_decodeIdx {d : DecUnit} {x : List Index} {out : List Byte}
    (hbuf : Buffers d.acc d.cnt (leftover 8 (bitsOfIndices x))) (hhv : d.hv = !x.isEmpty)
    (hE : out ++ d.held = rawBytes x) : out ++ d.released = decodeIdx x := by
  by_cases hx : x = []
  · subst hx
    rwa [DecUnit.released, DecUnit.held_of_not_hv hhv, ite_self, ← DecUnit.held_of_not_hv hhv]
  · rw [DecUnit.held_of_hv (by simp [hhv, hx])] at hE
    have htail : d.acc.toNat = tailValue x := hbuf.acc_toNat.trans (tailValue_eq_valueOf_leftover x).symm
    have hstrip : d.strips = true ↔ tailValue x = 0 ∧ (rawBytes x).getLast? = some 0x80#8 := by
      rw [DecUnit.strips_iff, htail, ← hE, List.getLast?_concat, Option.some_inj, ← BitVec.toNat_inj]
      rfl
    simp only [DecUnit.released, decodeIdx, hstrip, DecUnit.held_of_hv (d := d) (by simp [hhv, hx])]
    split
    · rw [← hE, List.dropLast_concat, List.append_nil]
    · exact hE

theorem map_append_decEndBeats {d : DecUnit} {x : List Index} {out : List Byte}
    (hbuf : Buffers d.acc d.cnt (leftover 8 (bitsOfIndices x))) (hhv : d.hv = !x.isEmpty)
    (hE : out ++ d.held = rawBytes x) : out.map .B ++ decEndBeats d = (decodeIdx x).map .B ++ [.EOM] := by
  rw [decEndBeats_eq_map_released, ← List.append_assoc, ← List.map_append, append_released_eq_decodeIdx hbuf hhv hE]

/-- A decoder message made of any commands that each act as a push. -/
theorem run_decMessage {α : Type} (f : α → Instr) (k : Table → α → Index)
    (hf : ∀ a s, exec (f a) s = exec (.decPush (k s.rom a)) s) (as : List α) {s : State} {rest : List HostEvent}
    (hm : s.mode = .ready) (hinit : s.dec.Initial)
    (hi : s.input = as.map (fun a => Trace.command (f a)) ++ [Trace.command .decEnd] ++ rest) :
    ∃ (h : Byte) (n : Nat), Host.Core.run Sys2Proof.core (as.length + 1) s =
      .next { s with
        input := rest, dec := ⟨0#18, 0#5, h, false⟩, freeCtr := n
        decOut := s.decOut ++ ((decodeIdx (as.map (k s.rom))).map .B ++ [.EOM]) } := by
  obtain ⟨hacc, hcnt, hhv⟩ := hinit
  rw [List.append_assoc] at hi
  obtain ⟨d, out, hrun, hbuf, hhv', hE⟩ := run_decPushes (as.map (k s.rom)) (s := { s with
      input := (as.map (k s.rom)).map (fun i => Trace.command (.decPush i)) ++ ([Trace.command .decEnd] ++ rest) })
    hm (show Buffers s.dec.acc s.dec.cnt [] from hacc ▸ hcnt ▸ buffers_nil) (Nat.zero_le _) rfl
  rw [List.length_map, ← run_eq_run_decPushes f k hf as hm hi] at hrun
  rw [DecUnit.held_of_not_hv hhv, List.nil_append, List.nil_append, ← rawBytes_eq_fullGroups] at hE
  have hbeats := map_append_decEndBeats hbuf (by rw [hhv', hhv, Bool.false_or]) hE
  refine ⟨Config.freeHold s.freeCtr, s.freeCtr + 1, (run_succ_of_run hrun (step_decEnd hm rfl)).trans ?_⟩
  rw [← hbeats, ← List.append_assoc s.decOut]
  rfl

end Sys2Proof.Machine
end

section
/-! The bits of an encoded message (R140, R169): the message's own bits, then a `1` and zeros up to a whole word. -/

namespace Sys2Proof.Machine.Ref

/-- What the encoder adds to `r` leftover bits: the terminator bit and `10 - r` zeros. -/
def terminatorBits (r : Nat) : List Bool := true :: List.replicate (10 - r) false

theorem valueOf_replicate_false (n : Nat) : valueOf (List.replicate n false) = 0 := by
  induction n with
  | zero => rfl
  | succ n ih => rw [List.replicate_succ, ← List.singleton_append, valueOf_append, ih]; simp [valueOf]

theorem valueOf_terminatorBits (r : Nat) : valueOf (terminatorBits r) = 2 ^ (10 - r) := by
  rw [terminatorBits, ← List.singleton_append, valueOf_append, valueOf_replicate_false, List.length_replicate]
  simp [valueOf]

theorem indexBits_terminatorWord {l : List Bool} (hl : l.length ≤ 10) :
    indexBits (terminatorWord l) = l ++ terminatorBits l.length := by
  have hlen : (terminatorBits l.length).length = 10 - l.length + 1 := by simp [terminatorBits]
  refine eq_of_valueOf_eq (by rw [length_indexBits, List.length_append, hlen]; omega) ?_
  rw [valueOf_indexBits, toNat_terminatorWord hl, T_eq_two_pow_mul_odd hl, valueOf_append, valueOf_terminatorBits, hlen,
    pow_succ]
  ring

theorem bitsOfIndices_encodeIdx {d : List Byte} (hd : d ≠ []) :
    bitsOfIndices (encodeIdx d) = bitsOfBytes d ++ terminatorBits (8 * d.length % 11) := by
  have hterm := indexBits_terminatorWord (length_leftover_eleven_le (bitsOfBytes d))
  rw [encodeIdx_of_ne_nil hd, bitsOfIndices, List.flatMap_append, List.flatMap_singleton, hterm, ← List.append_assoc,
    ← bitsOfIndices, bitsOfIndices_fullGroups_append_leftover, length_leftover, length_bitsOfBytes]

theorem leftover_bitsOfBytes (d : List Byte) : leftover 8 (bitsOfBytes d) = [] := by
  rw [← List.length_eq_zero_iff, length_leftover, length_bitsOfBytes, Nat.mul_mod_right]

/-- Bits behind whole bytes are cut into bytes on their own. -/
theorem fullGroups_bitsOfBytes_append (d : List Byte) (l : List Bool) :
    fullGroups 8 (bitsOfBytes d ++ l) = d ++ fullGroups 8 l := by
  rw [fullGroups_append (by norm_num), fullGroups_bitsOfBytes, leftover_bitsOfBytes, List.nil_append]

theorem leftover_bitsOfBytes_append (d : List Byte) (l : List Bool) :
    leftover 8 (bitsOfBytes d ++ l) = leftover 8 l := by
  rw [leftover_append (by norm_num), leftover_bitsOfBytes, List.nil_append]

/-- The table of R169, row by row: the byte that the terminator bits make, if any, and the value of the bits behind
it. -/
theorem terminatorBits_bytes_and_tail : ∀ r < 11,
    fullGroups 8 (terminatorBits r) = (if r ≤ 3 then [0x80#8] else []) ∧
      valueOf (leftover 8 (terminatorBits r)) = (if r ≤ 3 then 0 else 2 ^ (10 - r)) := by
  decide

theorem rawBytes_encodeIdx {d : List Byte} (hd : d ≠ []) :
    rawBytes (encodeIdx d) = if 8 * d.length % 11 ≤ 3 then d ++ [0x80#8] else d := by
  obtain ⟨hbytes, -⟩ := terminatorBits_bytes_and_tail _ (Nat.mod_lt (8 * d.length) (by norm_num))
  rw [rawBytes_eq_fullGroups, bitsOfIndices_encodeIdx hd, fullGroups_bitsOfBytes_append, hbytes]
  split
  · rfl
  · exact List.append_nil d

theorem tailValue_encodeIdx {d : List Byte} (hd : d ≠ []) :
    tailValue (encodeIdx d) = if 8 * d.length % 11 ≤ 3 then 0 else 2 ^ (10 - 8 * d.length % 11) := by
  obtain ⟨-, htail⟩ := terminatorBits_bytes_and_tail _ (Nat.mod_lt (8 * d.length) (by norm_num))
  rw [tailValue_eq_valueOf_leftover, bitsOfIndices_encodeIdx hd, leftover_bitsOfBytes_append, htail]

/-- R168 at index level: the strip fires exactly when the terminator bits made a byte of their own (R169). -/
theorem decodeIdx_encodeIdx (d : List Byte) : decodeIdx (encodeIdx d) = d := by
  by_cases hd : d = []
  · subst hd; decide
  · rw [decodeIdx, rawBytes_encodeIdx hd, tailValue_encodeIdx hd]
    by_cases hr : 8 * d.length % 11 ≤ 3
    · simp only [if_pos hr, List.getLast?_concat, and_self, if_true, List.dropLast_concat]
    · have htail : 2 ^ (10 - 8 * d.length % 11) ≠ 0 := by positivity
      simp only [if_neg hr, htail, false_and, if_false]

end Sys2Proof.Machine.Ref

namespace Sys2Proof.Machine

variable {W : Type} [DecidableEq W] [Inhabited W]

/-- L1 of R125, for `sub` of R161: a word that a valid table reads is looked up at its index. -/
theorem tblSub_tblRead_of_valid {t : Table W} (hv : validWordList t.toList = true) (i : Index) :
    tblSub t (tblRead t i) = i := by
  rw [tblSub, (tblFind_eq_some_iff_of_valid hv _ i).2 rfl, Option.getD_some]

/-- R168 at word level. -/
theorem decodeWords_encodeWords {t : Table W} (hv : validWordList t.toList = true) (d : List Byte) :
    Ref.decodeWords t (Ref.encodeWords t d) = d := by
  have hsub : tblSub t ∘ tblRead t = id := funext (tblSub_tblRead_of_valid hv)
  rw [Ref.decodeWords, Ref.encodeWords, List.map_map, hsub, List.map_id, Ref.decodeIdx_encodeIdx]

end Sys2Proof.Machine
end

section
/-! The statements of the family of spec/42_decoder.md. -/

namespace Sys2Proof.Machine

open Ref

/-- Settles O29: `DEC.MISS` acts as the push of 2047, so the message is one of pushes. -/
theorem decoderMessageEqualsDecodeIdx : Obligations.DecoderMessageEqualsDecodeIdx := by
  intro x s rest hm hinit hi
  rw [decIdx_eq_map_pushOrMiss] at hi
  exact run_decMessage pushOrMiss (fun _ o => o.getD 2047#11) exec_pushOrMiss x hm hinit hi

/-- Settles O30: `DEC.WORD` acts as the push of `sub(w)`, so the message is one of pushes. -/
theorem decoderMessageEqualsDecode : Obligations.DecoderMessageEqualsDecode :=
  fun ws _ _ hm hinit hi => run_decMessage .decWord tblSub execDecWord_eq_execDecPush ws hm hinit hi

/-- Settles O31, by the bits of an encoded message. -/
theorem stripCasesOnEncoderOutput : Obligations.StripCasesOnEncoderOutput :=
  fun _ hd => ⟨rawBytes_encodeIdx hd, tailValue_encodeIdx hd⟩

/-- Settles O32; the converse fails for `[0]`, which decodes to one zero byte, whose encoding is `[4]`. -/
theorem decodingAnEncodedMessageGivesItBack : Obligations.DecodingAnEncodedMessageGivesItBack :=
  ⟨decodeIdx_encodeIdx, fun _ _ _ t d hv => decodeWords_encodeWords ((validList_iff_validWordList t.toList).1 hv) d,
    [0#11], by decide⟩

/-- Settles O23, by the two cases of a push in numbers. -/
theorem decPushAppendsAnIndexAndExtractsBytes : Obligations.DecPushAppendsAnIndexAndExtractsBytes := by
  refine ⟨fun i => decode_encode (.decPush i), fun i s hm => execDecPush_refused i hm, fun i s hm hinv => ?_⟩
  have hi : i.toNat < 2048 := i.isLt
  have hacc := hinv.acc_lt
  obtain ⟨-, hacc_cnt, -⟩ := id hinv
  refine ⟨by omega, appendedIndex_div_lt hacc_cnt hi, fun hc => ?onePass, fun hc => ?twoPasses⟩
  case onePass =>
    refine execDecPush_next.2 ⟨hm, ?_⟩
    rw [decPushBody, decPushUnit_eq_of_cnt_le_four i hinv hc]
    rfl
  case twoPasses =>
    refine execDecPush_next.2 ⟨hm, ?_⟩
    rw [decPushBody, decPushUnit_eq_of_five_le_cnt i hinv hc]
    rfl

/-- Settles O25: `DEC.WORD` is the push of `sub(w)`, and the lookup's beat carries that index. -/
theorem decWordLooksUpAndPushes : Obligations.DecWordLooksUpAndPushes := by
  refine ⟨fun w => decode_encode (.decWord w), fun w s hm => execDecWord_refused w hm,
    fun w s hm => ⟨_, execDecWord_next.2 ⟨hm, rfl⟩⟩, fun w s i hm hrom hi => ?hit, fun w s hw => ?miss,
    fun w s t ht => ?lookup⟩
  case hit => exact execDecWord_of_tblFind_eq_some ((tblFind_eq_some_iff_of_valid (hrom hm) w i).2 hi)
  case miss => exact execDecWord_of_tblFind_eq_none ((tblFind_eq_none s.rom w).2 hw)
  case lookup =>
    obtain ⟨hm, rfl⟩ := execTblLookup_next.1 ht
    have hpush := (exec_lookup_answer s.rom w _).trans
      (exec_decPush_of_ready (s := s.emitLkp ⟨(tblFind s.rom w).isSome, tblSub s.rom w⟩) hm _)
    exact ⟨_, _, _, rfl, hpush, execDecWord_next.2 ⟨hm, rfl⟩, rfl⟩

/-- Settles O26, by the three cases of the beats: nothing held, stripped, released. -/
theorem decEndStripsOrReleasesTheHeldByte : Obligations.DecEndStripsOrReleasesTheHeldByte := by
  refine ⟨decode_encode .decEnd, fun s hm => execDecEnd_refused hm, fun s hm =>
    ⟨Config.freeHold s.freeCtr, s.freeCtr + 1, ?_⟩⟩
  rw [← decEndBeats_eq s.dec]
  exact exec_decEnd_of_ready hm

/-- Settles O24: both commands perform the same body. -/
theorem decMissPushesElevenOnes : Obligations.DecMissPushesElevenOnes := by
  refine ⟨decode_encode .decMiss, fun s hm => execDecMiss_refused hm, exec_decMiss_eq_exec_decPush,
    fun s hm => ?_⟩
  exact ⟨_, execDecMiss_next.2 ⟨hm, rfl⟩, hm, by simp [State.cfgErr, decPushBody, hm]⟩

end Sys2Proof.Machine
end

section
/-! Acceptance (R196): each command stands behind the check for the one mode that accepts it. -/

namespace Sys2Proof.Machine

theorem accepts_tblLoad_iff (src : List WORD) (m : Mode) : accepts (.tblLoad src) m = true ↔ m = .unconfigured := by
  cases m <;> simp [accepts]

theorem accepts_iff_of_ne_tblLoad {i : Instr} (hi : ∀ src, i ≠ .tblLoad src) (m : Mode) :
    accepts i m = true ↔ m = .ready := by
  cases i with
  | tblLoad src => exact absurd rfl (hi src)
  | _ => cases m <;> simp [accepts]

/-- The machine's mode check is the column of R196's table. -/
theorem exec_eq_requireMode_accepting (i : Instr) :
    ∃ m act, (∀ s, exec i s = requireMode m s act) ∧ ∀ m', accepts i m' = true ↔ m' = m := by
  by_cases hload : ∃ src, i = .tblLoad src
  · obtain ⟨src, rfl⟩ := hload
    exact ⟨.unconfigured, _, fun _ => rfl, accepts_tblLoad_iff src⟩
  · have hi := not_exists.1 hload
    obtain ⟨act, hact⟩ := exec_eq_requireMode_ready hi
    exact ⟨.ready, act, hact, accepts_iff_of_ne_tblLoad hi⟩

end Sys2Proof.Machine
end

section
/-! What a push puts on `DEC_OUT` (R162), whatever the registers hold. -/

namespace Sys2Proof.Machine

/-- The loop of R162 releases bytes and never an `EOM`. -/
theorem decDrain_beats_eq_map (n : Nat) (d : DecUnit) : ∃ ys : List Byte, (decDrain n d).2 = ys.map .B := by
  induction n generalizing d with
  | zero => exact ⟨[], rfl⟩
  | succ n ih =>
    unfold decDrain
    split
    · obtain ⟨ys, hys⟩ := ih (decPass d).1
      refine ⟨d.held ++ ys, ?_⟩
      rw [List.map_append, ← heldBeats_eq_map_held, ← hys]
      rfl
    · exact ⟨[], rfl⟩

theorem decPushUnit_beats_eq_map (i : Index) (d : DecUnit) : ∃ ys : List Byte, (decPushUnit i d).2 = ys.map .B :=
  decDrain_beats_eq_map 3 _

end Sys2Proof.Machine
end

section
/-! The statements of the family of spec/60_exceptions.md. -/

namespace Sys2Proof.Machine

/-- Settles O15, by the mode check of each command, `RESET`'s next state and the decoder's refusal. -/
theorem acceptanceTable : Obligations.AcceptanceTable := by
  refine ⟨fun i s h => ?accepted, fun i s h => ?refused, fun s c rest hi => ⟨_, step_reset hi⟩,
    fun s c why rest hi hd => stepWith_reserved hi hd⟩
  case accepted =>
    obtain ⟨m, act, hact, hm⟩ := exec_eq_requireMode_accepting i
    exact ⟨_, (hact s).trans (requireMode_accepted act ((hm s.mode).1 h))⟩
  case refused =>
    obtain ⟨m, act, hact, hm⟩ := exec_eq_requireMode_accepting i
    have hmode : s.mode ≠ m := fun heq => Bool.false_ne_true (h.symm.trans ((hm s.mode).2 heq))
    exact (hact s).trans (requireMode_refused act hmode)

/-- Settles O34: either command is the push of 2047, which releases bytes alone. -/
theorem unknownWordIsNotAFault : Obligations.UnknownWordIsNotAFault := by
  intro s hm i hi
  have hpush : exec i s = exec (.decPush 2047#11) s := by
    rw [← exec_decMiss_eq_exec_decPush]
    obtain rfl | ⟨w, rfl, hw⟩ := hi
    · rfl
    · exact execDecWord_of_tblFind_eq_none ((tblFind_eq_none s.rom w).2 hw)
  obtain ⟨ys, hys⟩ := decPushUnit_beats_eq_map 2047#11 s.dec
  refine ⟨decPushBody 2047#11 s, ys, hpush.trans (exec_decPush_of_ready hm _), hm, ?_, ?_, rfl, hpush⟩
  · simp [State.cfgErr, decPushBody, hm]
  · exact congrArg (s.decOut ++ ·) hys

/-- Settles O36: the load takes the fault entry, which changes the mode and the table alone, and `HALTED` refuses every
command. -/
theorem configurationErrorHaltsForGood : Obligations.ConfigurationErrorHaltsForGood := by
  intro src s hm hv
  have hload := execTblLoad_of_tableOf_eq_none hm (tableOf_eq_none_of_not_validList hv)
  have hinitial (h : s.Inv) : s.enc = .init ∧ s.dec.Initial := h.idle (by simp [hm])
  exact ⟨haltConfigurationError s, hload, rfl, rfl, rfl, rfl, rfl, rfl, rfl, rfl, rfl, rfl, hinitial,
    exec_refused_of_halted rfl⟩

end Sys2Proof.Machine
end

section
/-! Start-up, and the reads of the table that follow an encoder message (R123, R222). -/

namespace Sys2Proof.Machine

open Ref

/-- `RESET` and the load of a valid list, from any state whatever: the block is `READY` with that list as its table and
both units initial, and no beat was made. -/
theorem run_startUp {s : State} {rom : Table} {rest : List HostEvent} (hv : ValidList rom.toList)
    (hi : s.input = Trace.reset :: Trace.command (.tblLoad rom.toList) :: rest) :
    ∃ t : State, Host.Core.run Sys2Proof.core 2 s = .next t ∧ t.mode = .ready ∧ t.rom = rom ∧ t.enc = .init ∧
      t.dec.Initial ∧ t.input = rest ∧ t.encOut = s.encOut ∧ t.decOut = s.decOut ∧ t.tblOut = s.tblOut := by
  have hload := step_tblLoad (s := resetBlock { s with input := Trace.command (.tblLoad rom.toList) :: rest })
    rfl hv rfl
  exact ⟨_, (run_succ_of_step (step_reset hi) 1).trans (run_succ_of_step hload 0), rfl, rfl, rfl, ⟨rfl, rfl, rfl⟩, rfl,
    rfl, rfl, rfl⟩

theorem run_trans {m n : Nat} {s t u : State} (h : Host.Core.run Sys2Proof.core m s = .next t)
    (h' : Host.Core.run Sys2Proof.core n t = .next u) : Host.Core.run Sys2Proof.core (m + n) s = .next u :=
  (run_add_of_run h n).trans h'

theorem step_tblRd {s : State} {k : Index} {rest : List HostEvent} (hm : s.mode = .ready)
    (hi : s.input = Trace.command (.tblRd k) :: rest) :
    step s = .next { s with tblOut := s.tblOut ++ [tblRead s.rom k], input := rest } :=
  (step_command hi).trans (execTblRd_next.2 ⟨hm, rfl⟩)

/-- The reads of an index sequence hand out its words in order (R123). -/
theorem run_tblRds (ks : List Index) {s : State} {rest : List HostEvent} (hm : s.mode = .ready)
    (hi : s.input = ks.map (fun k => Trace.command (.tblRd k)) ++ rest) :
    Host.Core.run Sys2Proof.core ks.length s =
      .next { s with tblOut := s.tblOut ++ ks.map (tblRead s.rom), input := rest } := by
  induction ks generalizing s with
  | nil =>
    simp only [List.map_nil, List.nil_append] at hi
    simp only [List.map_nil, List.append_nil, ← hi]
    rfl
  | cons k ks ih =>
    have hrun := ih (s := { s with
        tblOut := s.tblOut ++ [tblRead s.rom k], input := ks.map (fun k => Trace.command (.tblRd k)) ++ rest }) hm rfl
    rw [List.append_assoc] at hrun
    exact (run_succ_of_step (step_tblRd hm hi) _).trans hrun

end Sys2Proof.Machine
end

section
/-! The beats of one step (R58, R60, R231): none is taken back, and few are new. -/

namespace Sys2Proof.Machine

/-- Every stream of `t` is that of `s` with at most 2 beats more on `ENC_OUT` and `DEC_OUT`, and at most 1 on `LKP_OUT`
and `TBL_OUT`. -/
def AppendsFewBeats (s t : State) : Prop :=
  ∃ (e : List EncBeat) (d : List DecBeat) (l : List LkpBeat) (w : List WORD),
    t.encOut = s.encOut ++ e ∧ t.decOut = s.decOut ++ d ∧ t.lkpOut = s.lkpOut ++ l ∧
    t.tblOut = s.tblOut ++ w ∧ e.length ≤ 2 ∧ d.length ≤ 2 ∧ l.length ≤ 1 ∧ w.length ≤ 1

section
variable {s t : State}

theorem AppendsFewBeats.of_silent (henc : t.encOut = s.encOut) (hdec : t.decOut = s.decOut)
    (hlkp : t.lkpOut = s.lkpOut) (htbl : t.tblOut = s.tblOut) : AppendsFewBeats s t :=
  ⟨[], [], [], [], by simp [henc], by simp [hdec], by simp [hlkp], by simp [htbl], by simp⟩

theorem actEnc_appendsFewBeats {f : EncUnit → EncUnit × List EncBeat} (h : (f s.enc).2.length ≤ 2) :
    AppendsFewBeats s (s.actEnc f) :=
  ⟨(f s.enc).2, [], [], [], rfl, by simp [State.actEnc], by simp [State.actEnc], by simp [State.actEnc], h, by simp⟩

/-- R142: "Never two". -/
theorem length_encPushUnit_beats_le (b : Byte) (e : EncUnit) : (encPushUnit b e).2.length ≤ 1 := by
  obtain h | ⟨i, h⟩ := encPushUnit_beats b e <;> simp [h]

theorem length_encEndBeats_le (e : EncUnit) : (encEndBeats e).length ≤ 2 := by
  unfold encEndBeats
  split
  · rfl
  · split
    · rfl
    · exact one_le_two

theorem length_heldBeats_le (d : DecUnit) : (heldBeats d).length ≤ 1 := by
  unfold heldBeats
  split
  · rfl
  · exact Nat.zero_le 1

/-- R162: a push releases the byte held and makes at most one byte beside the one it holds. -/
theorem length_decPushUnit_beats_le (k : Index) {d : DecUnit} (h : d.cnt.toNat ≤ 7) :
    (decPushUnit k d).2.length ≤ 2 := by
  have hheld := length_heldBeats_le d
  rcases Nat.lt_or_ge 4 d.cnt.toNat with hc | hc
  · rw [decPushUnit_twoPasses k hc h, List.length_append, List.length_singleton]
    omega
  · rw [decPushUnit_onePass k hc]
    exact hheld.trans one_le_two

theorem length_decEndBeats_le (d : DecUnit) : (decEndBeats d).length ≤ 2 := by
  unfold decEndBeats
  split
  · exact one_le_two
  · rw [List.length_append, List.length_singleton]
    exact Nat.succ_le_succ (length_heldBeats_le d)

theorem decPushBody_appendsFewBeats (h : s.dec.Inv) (k : Index) : AppendsFewBeats s (decPushBody k s) := by
  obtain ⟨hcnt, -, -⟩ := h
  exact ⟨[], (decPushUnit k s.dec).2, [], [], by simp [decPushBody], rfl, by simp [decPushBody], by simp [decPushBody],
    Nat.zero_le 2, length_decPushUnit_beats_le k hcnt, by simp⟩

theorem decEndBody_appendsFewBeats (s : State) : AppendsFewBeats s (decEndBody s) :=
  ⟨[], decEndBeats s.dec, [], [], by simp [decEndBody], rfl, by simp [decEndBody], by simp [decEndBody],
    Nat.zero_le 2, length_decEndBeats_le s.dec, by simp⟩

/-- The bound on a decoder push is the one that needs an invariant, I4 of R34. -/
theorem exec_appendsFewBeats {i : Instr} (h : s.dec.Inv) (ht : exec i s = .next t) : AppendsFewBeats s t := by
  cases i with
  | encPush b =>
    obtain ⟨-, rfl⟩ := execEncPush_next.1 ht
    exact actEnc_appendsFewBeats (f := encPushUnit b) ((length_encPushUnit_beats_le b s.enc).trans one_le_two)
  | encEnd =>
    obtain ⟨-, rfl⟩ := execEncEnd_next.1 ht
    exact actEnc_appendsFewBeats (f := fun e => (.init, encEndBeats e)) (length_encEndBeats_le s.enc)
  | decPush | decMiss | decWord | decEnd =>
    obtain ⟨-, rfl | ⟨k, rfl⟩⟩ := exec_decCommand_next rfl ht
    · exact decEndBody_appendsFewBeats s
    · exact decPushBody_appendsFewBeats h k
  | tblRd k =>
    obtain ⟨-, rfl⟩ := execTblRd_next.1 ht
    exact ⟨[], [], [], [tblRead s.rom k], by simp⟩
  | tblLookup w =>
    obtain ⟨-, rfl⟩ := execTblLookup_next.1 ht
    exact ⟨[], [], [⟨(tblFind s.rom w).isSome, tblSub s.rom w⟩], [], by simp⟩
  | tblLoad src =>
    obtain ⟨-, ⟨rom, -, rfl⟩ | ⟨-, rfl⟩⟩ := execTblLoad_next ht <;> exact .of_silent rfl rfl rfl rfl

end

end Sys2Proof.Machine
end

section
/-! Units with no message begun (R34, R229). -/

namespace Sys2Proof.Machine

/-- I3: an encoder that has seen no byte of a message is in its initial state. -/
theorem EncUnit.Inv.eq_init_of_not_any {e : EncUnit} (h : e.Inv) (hany : e.any = false) : e = .init := by
  obtain ⟨acc, cnt, any⟩ := e
  obtain ⟨-, -, hempty⟩ := h
  obtain ⟨rfl, rfl⟩ := hempty hany
  exact congrArg _ hany

/-- I6: a decoder that holds no byte is in its initial state. -/
theorem DecUnit.Inv.initial_of_not_hv {d : DecUnit} (h : d.Inv) (hhv : d.hv = false) : d.Initial := by
  obtain ⟨-, -, hempty⟩ := h
  obtain ⟨hcnt, hacc⟩ := hempty hhv
  exact ⟨hacc, hcnt, hhv⟩

end Sys2Proof.Machine
end

section
/-! The statements of the family of spec/70_reset_and_hazards.md. -/

namespace Sys2Proof.Machine

open Ref

/-- Settles O51: the start-up leaves a `READY` block with both units initial, and the encoder message, the reads and the
decoder message each run from where the one before ended; decoding the words read gives `d` back (R168). -/
theorem startUpEncodeReadDecodeRoundTrip : Obligations.StartUpEncodeReadDecodeRoundTrip := by
  intro rom d s hv hi
  have hlen : s.input.length = 2 + (d.length + 1 + ((encodeIdx d).length + ((encodeWords rom d).length + 1))) := by
    simp only [hi, Trace.encMsg, Trace.decMsg, List.length_append, List.length_map, List.length_cons, List.length_nil]
    omega
  rw [List.append_assoc, List.append_assoc] at hi
  obtain ⟨t, hstart, hm, rfl, henc, hinit, hi_t, hencOut, hdecOut, htblOut⟩ := run_startUp hv hi
  have hencode := encoderMessageEqualsEncodeIdx d t _ hm henc hi_t
  have hread := run_tblRds (encodeIdx d) (rest := Trace.decMsg (encodeWords t.rom d)) (s := { t with
      input := (encodeIdx d).map (fun k => Trace.command (.tblRd k)) ++ Trace.decMsg (encodeWords t.rom d)
      encOut := t.encOut ++ ((encodeIdx d).map .W ++ [.EOM]) }) hm rfl
  obtain ⟨b, n, hdecode⟩ := decoderMessageEqualsDecode (encodeWords t.rom d) { t with
      input := Trace.decMsg (encodeWords t.rom d)
      encOut := t.encOut ++ ((encodeIdx d).map .W ++ [.EOM])
      tblOut := t.tblOut ++ encodeWords t.rom d } [] hm hinit (List.append_nil _).symm
  rw [decodeWords_encodeWords ((validList_iff_validWordList _).1 hv)] at hdecode
  rw [hlen, ← hencOut, ← htblOut, ← hdecOut]
  exact ⟨_, run_trans hstart (run_trans hencode (run_trans hread hdecode)), ⟨hm, congrArg EncUnit.any henc,
    congrArg EncUnit.cnt henc, rfl, rfl⟩, rfl, rfl, rfl, rfl, rfl⟩

/-- Settles O2, by the next state of `RESET` and by what any other step keeps. -/
theorem resetEventClearsTheBlockInEveryMode : Obligations.ResetEventClearsTheBlockInEveryMode := by
  refine ⟨fun s c rest hi => ⟨_, _, _, step_reset hi, fun t ht => ?status⟩,
    fun s t ht hreset => ⟨fun hm => ?halted, fun hm => ?ready⟩⟩
  case status =>
    obtain rfl := Host.Outcome.next.inj ((step_reset hi).symm.trans ht)
    exact ⟨rfl, rfl⟩
  case halted => exact (step_keeps_mode ht hreset fun hunconfigured => by simp [hm] at hunconfigured).trans hm
  case ready =>
    obtain ⟨c, rest, hi⟩ | ⟨-, hrom⟩ := tableIsImmutableWhileReady s t hm ht
    · exact absurd hi (hreset c rest)
    · exact hrom

/-- Settles O48, by the cases of a step: `RESET` and an idle step make no beat, a command makes few. -/
theorem streamsOnlyGrowAndByFewBeats : Obligations.StreamsOnlyGrowAndByFewBeats := by
  intro s t h ht
  change AppendsFewBeats s t
  obtain ⟨-, rfl⟩ | ⟨ev, rest, -, ⟨-, rfl⟩ | ⟨-, -, rfl⟩ | ⟨c, i, -, -, -, hexec⟩⟩ := step_next ht
  · exact .of_silent rfl rfl rfl rfl
  · exact .of_silent rfl rfl rfl rfl
  · exact .of_silent rfl rfl rfl rfl
  · exact exec_appendsFewBeats (s := { s with input := rest }) h.dec hexec

/-- Settles O50, by the next states of the two commands, and by I3 and I6 in a final state. -/
theorem endingBothMessagesIsFinal : Obligations.EndingBothMessagesIsFinal := by
  refine ⟨fun s hm => ?ends, fun s hinv hfinal => ?initial⟩
  case ends =>
    exact ⟨_, _, execEncEnd_next.2 ⟨hm, rfl⟩, exec_decEnd_of_ready hm, ⟨hm, rfl, rfl, rfl, rfl⟩, rfl, rfl, rfl, rfl⟩
  case initial =>
    obtain ⟨-, hany, -, hhv, -⟩ := hfinal
    exact ⟨hinv.enc.eq_init_of_not_any hany, hinv.dec.initial_of_not_hv hhv⟩

end Sys2Proof.Machine
end

section
/-! The mode as its encoding and as the two level outputs (R21, R32). -/

namespace Sys2Proof.Machine

/-- R21: the three modes have three encodings. -/
theorem Mode.bits_injective : Function.Injective Mode.bits := by
  intro m n
  cases m <;> cases n <;> simp [Mode.bits]

theorem State.cfgOk_eq_true_iff (s : State) : s.cfgOk = true ↔ s.mode = .ready := decide_eq_true_iff

theorem State.cfgErr_eq_true_iff (s : State) : s.cfgErr = true ↔ s.mode = .halted := decide_eq_true_iff

end Sys2Proof.Machine
end

section
/-! The words that decode to a command, listed row by row of the opcode map (R92, R93). -/

namespace Sys2Proof

/-- The words that a row of format `C` selects, in order. -/
def OpcodeRow.words (r : OpcodeRow) : List Nat := List.range' r.value (r.lastWord + 1 - r.value)

/-- The rows of R92 whose commands are sent as a format `C` word. -/
def formatCRows : List OpcodeRow := opcodeRows.filter (·.format = .C)

theorem mem_formatCRows {r : OpcodeRow} : r ∈ formatCRows ↔ r ∈ opcodeRows ∧ r.format = .C := by
  simp [formatCRows]

theorem OpcodeRow.mem_words {r : OpcodeRow} {x : Nat} : x ∈ r.words ↔ r.value ≤ x ∧ x ≤ r.lastWord := by
  rw [words, List.mem_range'_1]
  omega

theorem isSome_decodeTableWord_sixteen_iff (x : Nat) : (decodeTableWord 16 x).isSome = true ↔
    x < 16384 ∧ ∃ i, decode (.c (BitVec.ofNat 14 x) : RawCommand) = .ok i := by
  by_cases hx : x < 16384
  · have hc : tableCommand 16 x = some (.c (BitVec.ofNat 14 x)) := if_pos hx
    cases hd : decode (.c (BitVec.ofNat 14 x) : RawCommand) <;> simp [decodeTableWord, hc, hd, hx]
  · have hc : tableCommand 16 x = none := if_neg hx
    simp [decodeTableWord, hc, hx]

/-- Stated with the lengths as variables: the kernel would evaluate the sum of two closed ones. -/
theorem length_filter_isNone {α β : Type} {l : List α} {f : α → Option β} {m n : Nat} (hl : l.length = m + n)
    (hsome : (l.filter fun x => (f x).isSome).length = m) : (l.filter fun x => (f x).isNone).length = n := by
  rw [l.length_eq_length_filter_add fun x => (f x).isSome, hsome] at hl
  simpa using hl

/-- A format `C` word decodes exactly when it is among the words of a row (R92, R93). -/
theorem exists_decode_c_iff_exists_row (x : BitVec 14) : (∃ i, decode (.c x : RawCommand) = .ok i) ↔
    ∃ r ∈ formatCRows, x.toNat ∈ r.words := by
  rw [← wellFormed_eq_true_iff_exists_decode, ← Bool.not_eq_false, ← selectedRows_C_eq_nil_iff,
    List.filter_eq_nil_iff]
  push Not
  refine exists_congr fun r => ?_
  rw [mem_formatCRows, and_assoc, OpcodeRow.mem_words]
  exact and_congr_right fun hr => selects_C_iff x.isLt r hr

theorem formatCRows_lastWord_lt : ∀ r ∈ formatCRows, r.lastWord < 16384 := by decide

/-- No word is listed twice: neither in one row nor in two. -/
theorem nodup_flatMap_words : (formatCRows.flatMap OpcodeRow.words).Nodup := by
  have hranges : formatCRows.Pairwise fun r r' => r.lastWord < r'.value := by decide
  refine List.nodup_flatMap.2 ⟨fun r _ => List.nodup_range', hranges.imp fun {r r'} hlt x hx hx' => ?_⟩
  obtain ⟨-, hhi⟩ := OpcodeRow.mem_words.1 hx
  obtain ⟨hlo, -⟩ := OpcodeRow.mem_words.1 hx'
  omega

/-- The format `C` words that decode are the words of the rows, each once. -/
theorem commandWords_perm_flatMap_words :
    ((List.range 16384).filter fun x => (decodeTableWord 16 x).isSome).Perm (formatCRows.flatMap OpcodeRow.words) := by
  refine (List.perm_ext_iff_of_nodup (List.nodup_range.filter _) nodup_flatMap_words).2 fun x => ?_
  rw [List.mem_filter, List.mem_range, isSome_decodeTableWord_sixteen_iff, ← and_assoc, and_self, List.mem_flatMap,
    exists_decode_c_iff_exists_row]
  constructor
  · rintro ⟨hx, r, hr, hmem⟩
    rw [BitVec.toNat_ofNat, Nat.mod_eq_of_lt hx] at hmem
    exact ⟨r, hr, hmem⟩
  · rintro ⟨r, hr, hmem⟩
    have hx : x < 16384 := (OpcodeRow.mem_words.1 hmem).2.trans_lt (formatCRows_lastWord_lt r hr)
    exact ⟨hx, r, hr, by rwa [BitVec.toNat_ofNat, Nat.mod_eq_of_lt hx]⟩

/-- 256 words of `ENC.PUSH`, 2048 each of `DEC.PUSH` and `TBL.RD`, and the three commands without operand (R93). -/
theorem length_flatMap_words : (formatCRows.flatMap OpcodeRow.words).length = 4355 := by
  simp [formatCRows, opcodeRows, OpcodeRow.words]

end Sys2Proof
end

section
/-! The statements that belong to no one file of the spec: the state after reset, the two level outputs, and the command
words counted and written out. -/

namespace Sys2Proof.Machine

/-- Settles O3: both units are in their initial state, nothing is out, and the mode is not `READY`. -/
theorem resetStateMeetsTheInvariant : Obligations.ResetStateMeetsTheInvariant where
  left :=
    { enc := EncUnit.init_inv
      dec := DecUnit.init_inv 0#8
      rom := nofun
      idle := fun _ => ⟨rfl, rfl, rfl, rfl⟩
      mark := Nat.le_refl 0
      sent := fun _ => rfl }
  right := fun ⟨hready, _⟩ => nomatch hready

/-- Settles O8: each output tells one mode, and no two modes have the same encoding. -/
theorem statusOutputsFollowTheMode : Obligations.StatusOutputsFollowTheMode := by
  refine fun s => ⟨?ok, ?err, fun hm => ?unconfigured⟩
  case ok => exact s.cfgOk_eq_true_iff.trans (Mode.bits_injective.eq_iff (b := .ready)).symm
  case err => exact s.cfgErr_eq_true_iff.trans (Mode.bits_injective.eq_iff (b := .halted)).symm
  case unconfigured => simp [← Bool.not_eq_true, s.cfgOk_eq_true_iff, s.cfgErr_eq_true_iff, hm]

/-- Settles O10: the command words are those of the rows of R92, each once, and the other words are reserved. -/
theorem countOfCommandWords : Obligations.CountOfCommandWords := by
  have hcount := commandWords_perm_flatMap_words.length_eq.trans length_flatMap_words
  exact ⟨hcount, length_filter_isNone (m := 4355) (n := 12029) List.length_range hcount⟩

/-- Settles O13: each word is the encoding of its command. -/
theorem writtenOutCommandWordsDecode : Obligations.WrittenOutCommandWordsDecode :=
  ⟨(decode_eq_ok_iff _ (.encPush 0xDE#8)).2 rfl, (decode_eq_ok_iff _ .encEnd).2 rfl,
    (decode_eq_ok_iff _ (.decPush 1781#11)).2 rfl, (decode_eq_ok_iff _ .decMiss).2 rfl,
    (decode_eq_ok_iff _ .decEnd).2 rfl, (decode_eq_ok_iff _ (.tblRd 879#11)).2 rfl,
    (decode_eq_ok_iff _ (.decWord (WORD.ofString "riegel"))).2 rfl⟩

end Sys2Proof.Machine
end
